-- ==== Sys2Proof/Word.lean ====
section
/-! DEFINITION. The words of the machine, at the spec's default sizes (`00_scope.md` R5; log 1). -/

namespace Sys2Proof

/-- A value of `XLEN` = 8 bits: a register, a data cell, an immediate `k`, a data address, a code
word address, `pc` or `sp`, all of one width in this spec (R5, R92). -/
abbrev Byte := BitVec 8

/-- An instruction word of `ILEN` = 16 bits, the addressable unit of code memory (R80). -/
abbrev CodeWord := BitVec 16

/-- A register number: field `a` or `b`, 3 bits, every value legal (R93). -/
abbrev RegNum := Fin 8

/-- What the 3-bit field `s` can encode: 0 to 4 name a flag, 5 to 7 are reserved (R94). -/
abbrev StatusNum := Fin 8

end Sys2Proof
end

