-- ==== Sys2Proof/Config.lean ====
section
/-! DEFINITION. What a platform fixes (the OPEN parameters of `00_scope.md` R5) and the free values
of what the spec leaves without a value. -/

namespace Sys2Proof

/-- The OPEN parameters, which "the model takes as an argument" (R5): carried in `State.cfg`, given
to `State.launch`, changed by no step (log 3). -/
structure Config where
  /-- `PC_RESET`: `pc` after reset (R38, R261). -/
  pcReset : Byte
  /-- `SP_RESET`: `sp` after reset (R25, R38). -/
  spReset : Byte
  /-- `PLATFORM_REGIONS`: the data addresses that are not plain storage (R56). -/
  platformRegions : List Byte
deriving DecidableEq, Repr

/-- The defaults of R5: `PC_RESET` = 0x00, `SP_RESET` = 0xFF, no platform region. -/
def Config.default : Config where
  pcReset := 0x00#8
  spReset := 0xFF#8
  platformRegions := []

/-- FREE VALUE (log 17): flag C after ALU-NEG of an operand, left unspecified by R152 (U7). -/
opaque Config.negCarry : Byte → Bool

/-- FREE VALUE (log 17): flag V after ALU-NEG of an operand, left unspecified by R152 (U7). -/
opaque Config.negOverflow : Byte → Bool

end Sys2Proof
end

