-- ==== Sys2Proof/Machine/State.lean ====
section
/-! DEFINITION. The state of the machine (`10_state.md` R20), its faults (`60_exceptions.md` R232),
its refusals, the launch by the reset event (`70_reset_and_hazards.md` R260, R262) and the reset state. -/

namespace Sys2Proof.Machine

/-- The five flags, by the letters of R26. -/
inductive Flag where
  | c | z | n | v | s
deriving DecidableEq, Repr

/-- The status register: exactly five bits (R26). It is never read or written whole; the bit numbers
of the operand `s` are given by `Flag.ofNum?`. -/
structure SReg where
  /-- Carry, `sreg[0]` (R27). -/
  c : Bool
  /-- Zero, `sreg[1]` (R28). -/
  z : Bool
  /-- Negative, `sreg[2]` (R29). -/
  n : Bool
  /-- Overflow, `sreg[3]` (R30). -/
  v : Bool
  /-- Sign, `sreg[4]` (R31). -/
  s : Bool
deriving DecidableEq, Repr

/-- One word of code memory at its word address. -/
abbrev CodeCell := Nat × CodeWord

/-- Everything the spec gives the machine (R20), and the open parameters of R5 (`cfg`, the model's
own field, log 3). -/
structure State where
  /-- `x[0]` to `x[7]` (R21). -/
  regs : Vector Byte 8
  /-- The program counter, a code word address (R23). -/
  pc : Byte
  /-- The stack pointer, a data address (R25). -/
  sp : Byte
  /-- The status register (R26). -/
  sreg : SReg
  /-- Data memory (R33), canonical: addresses rising and below 256, no entry 0x00; an unlisted cell
  reads 0x00 (log 6). -/
  datamem : List Host.Cell
  /-- Code memory (R34), addresses rising and below 256; an unlisted word is one that the program
  image does not cover (R54). -/
  codemem : List CodeCell
  /-- Set by STOP (R35). -/
  halted : Bool
  /-- The open parameters (R5); no step changes them. -/
  cfg : Config
deriving DecidableEq, Repr

/-- The model's faults: the closed list of R232, without `ReadOfUnwritten`, which exists only under
the other option of R39 (log 7). A fault is the model refusing to go on where the source gives no
meaning, not a hardware event; every one is SAFE (the hardware may go on), log 2, 20. -/
inductive Fault where
  /-- Raised by decode: unassigned op code (R96). Safe. -/
  | illegalInstruction (iaddr : Byte) (word : CodeWord)
  /-- Raised by decode: a must-be-zero bit is 1 (R97). Safe. -/
  | reservedEncoding (iaddr : Byte) (word : CodeWord)
  /-- Raised by decode, and by BRBS, BRBC, BCLR, BSET run on an ill-formed term: status bit number 5,
  6 or 7 (R94, R184, R202). Safe. -/
  | reservedStatusBit (iaddr : Byte) (s : StatusNum)
  /-- Raised by LD, ST, LDS, STS, PUSH, POP, CALL, RET: data access to a platform address (R52, R53).
  Safe. -/
  | unmodelledRegion (addr : Byte)
  /-- Raised by fetch: the program image does not cover the word (R54). Safe. -/
  | fetchOfUnwritten (p : Byte)
deriving DecidableEq, Repr

/-- Why there is no step. -/
inductive Refusal where
  /-- Raised by `exec` for an instruction without a meaning; no instruction is left so. Safe. -/
  | notModelled (mnemonic : String)
  /-- Raised by `step` when `halted` is 1: "the machine makes no step" (R9, R35, R180; log 10). Safe. -/
  | halted
deriving DecidableEq, Repr

/-- The outcome of an instruction or a step. -/
abbrev Result := Host.Outcome State Fault Refusal

/-- The reset event (R260) on what stands in the machine: it sets `pc`, `sp` and `halted`; the
contents of registers, flags and data cells, which it leaves unspecified, and the program image are
the free inputs of the launch (R38, R39 second option, R262; log 7, 9). -/
def State.launch (cfg : Config) (regs : Vector Byte 8) (sreg : SReg) (datamem : List Host.Cell)
    (codemem : List CodeCell) : State where
  regs := regs
  pc := cfg.pcReset
  sp := cfg.spReset
  sreg := sreg
  datamem := datamem
  codemem := codemem
  halted := false
  cfg := cfg

/-- DESIGN CHOICE (log 5): the five flags at reset, all 0. -/
def SReg.reset : SReg := { c := false, z := false, n := false, v := false, s := false }

/-- The one launch named as the reset state: the default parameters of R5, no program, and for the
values R38 leaves unspecified DESIGN CHOICE zero (log 4, 5, 6). -/
def State.reset : State := State.launch Config.default (Vector.replicate 8 0#8) SReg.reset [] []

end Sys2Proof.Machine
end

