-- ==== Sys2Proof/Machine/Ops.lean ====
section
/-! DEFINITION. The named operations over registers, data memory and code memory, each said once:
register access (R22), `MemRead` and `MemWrite` (R52, R53), `CodeRead` (R54), push and pop (R214), the
program counter (R24, R181). There is no operation for taking an exception and none for returning
from one: the hardware raises none and has no trap entry or return (R231, R241, R242). -/

namespace Sys2Proof.Machine

/-! ### Lists of cells in the canonical form -/

/-- The entry listed for an address. -/
def Memory.lookup {α : Type} : List (Nat × α) → Nat → Option α
  | [], _ => none
  | (k, x) :: rest, a => if a = k then some x else Memory.lookup rest a

/-- List an entry for an address, in its place, instead of the one there. -/
def Memory.insert {α : Type} : List (Nat × α) → Nat → α → List (Nat × α)
  | [], a, v => [(a, v)]
  | (k, x) :: rest, a, v =>
    if a < k then (a, v) :: (k, x) :: rest
    else if a = k then (a, v) :: rest
    else (k, x) :: Memory.insert rest a v

/-- List no entry for an address. -/
def Memory.erase {α : Type} : List (Nat × α) → Nat → List (Nat × α)
  | [], _ => []
  | (k, x) :: rest, a => if a = k then rest else (k, x) :: Memory.erase rest a

/-- DESIGN CHOICE (log 6): what a data cell that is not listed reads as. -/
def Memory.unlisted : Byte := 0x00#8

/-- The content of one data cell. -/
def Memory.read (m : List Host.Cell) (a : Nat) : Byte := (Memory.lookup m a).getD Memory.unlisted

/-- Data memory after one cell is written; a cell that comes to hold what an unlisted cell reads as
is not listed. -/
def Memory.write (m : List Host.Cell) (a : Nat) (v : Byte) : List Host.Cell :=
  if v = Memory.unlisted then Memory.erase m a else Memory.insert m a v

/-- The canonical form of data memory: addresses strictly rising, each one of the 256 of R50, no
entry equal to what an unlisted cell reads as. -/
abbrev Memory.wf (m : List Host.Cell) : Prop :=
  m.Pairwise (fun x y => x.1 < y.1) ∧ ∀ x ∈ m, x.1 < 256 ∧ x.2 ≠ Memory.unlisted

/-- The canonical form of code memory: addresses strictly rising, each one of the 256 of R50. -/
abbrev Code.wf (m : List CodeCell) : Prop :=
  m.Pairwise (fun x y => x.1 < y.1) ∧ ∀ x ∈ m, x.1 < 256

/-- Both memories are in canonical form. -/
abbrev State.Inv (s : State) : Prop := Memory.wf s.datamem ∧ Code.wf s.codemem

/-! ### Registers -/

/-- `x[a]` as a value (R8, R22). No register is hard-wired (R21). -/
def State.reg (s : State) (a : RegNum) : Byte := s.regs[a]

/-- `x[a] <- v` (R8, R22). -/
def State.setReg (s : State) (a : RegNum) (v : Byte) : State := { s with regs := s.regs.set a v }

/-- `pc <- e` (R8). -/
def State.setPc (s : State) (e : Byte) : State := { s with pc := e }

/-- `sp <- e`; the arithmetic of `e` is modulo 256 (R25). -/
def State.setSp (s : State) (e : Byte) : State := { s with sp := e }

/-- The status register written, bits as computed by the caller. -/
def State.setSreg (s : State) (f : SReg) : State := { s with sreg := f }

/-- `halted <- 1` (R35, R180). -/
def State.halt (s : State) : State := { s with halted := true }

/-! ### Memory -/

/-- The content of data cell `a`. -/
def State.cell (s : State) (a : Byte) : Byte := Memory.read s.datamem a.toNat

/-- Data cell `a` holds `v`, every other cell as before. -/
def State.setCell (s : State) (a v : Byte) : State :=
  { s with datamem := Memory.write s.datamem a.toNat v }

/-- Whether an address is in `PLATFORM_REGIONS` (R56). -/
def State.inPlatform (s : State) (a : Byte) : Bool := s.cfg.platformRegions.contains a

/-- An instruction that reads data cell `a` and goes on with its content; a platform address is
refused with `UnmodelledRegion` (R52). -/
def readThen (s : State) (a : Byte) (next : Byte → State) : Result :=
  if s.inPlatform a then .fault (.unmodelledRegion a) else .next (next (s.cell a))

/-- An instruction that writes `v` to data cell `a` and goes on from there; a platform address is
refused with `UnmodelledRegion` and nothing is written (R53, R234). -/
def writeThen (s : State) (a v : Byte) (next : State → State) : Result :=
  if s.inPlatform a then .fault (.unmodelledRegion a) else .next (next (s.setCell a v))

/-- `CodeRead(p)` (R54): none where the program image does not cover the word. -/
def State.codeWord (s : State) (p : Byte) : Option CodeWord := Memory.lookup s.codemem p.toNat

/-- The host places one word of the program image (R262). -/
def State.placeWord (s : State) (p : Byte) (w : CodeWord) : State :=
  { s with codemem := Memory.insert s.codemem p.toNat w }

/-! ### Stack -/

/-- Push: store at `sp`, then decrement, modulo 256 and unchecked (R214). -/
def pushThen (s : State) (v : Byte) (next : State → State) : Result :=
  writeThen s s.sp v fun t => next (t.setSp (s.sp - 1))

/-- Pop: read at `sp + 1`, then increment, modulo 256 and unchecked (R214). -/
def popThen (s : State) (next : Byte → State → State) : Result :=
  readThen s (s.sp + 1) fun v => next v (s.setSp (s.sp + 1))

/-! ### Program counter -/

/-- The address of the instruction being executed: inside a rule `pc` holds it plus one (R9). -/
def State.iaddr (s : State) : Byte := s.pc - 1

/-- A guarded transfer: `if taken then pc <- k`, else fall through (R8, R183, R185). -/
def State.branchIf (s : State) (taken : Bool) (k : Byte) : State :=
  if taken then s.setPc k else s

end Sys2Proof.Machine
end

