-- ==== Sys2Proof/Machine/Flags.lean ====
section
/-! DEFINITION. The status register: the bit numbers of `s`, one bit read and written, and the flag
computations of `10_state.md` R27 to R31 and `41_arithmetic_logic.md` R142 to R149. -/

namespace Sys2Proof.Machine

/-- The bit numbering of R26: 0 = C, 1 = Z, 2 = N, 3 = V, 4 = S; 5, 6, 7 name no flag (R94). -/
def Flag.ofNum? (s : StatusNum) : Option Flag :=
  match s.val with
  | 0 => some .c
  | 1 => some .z
  | 2 => some .n
  | 3 => some .v
  | 4 => some .s
  | _ => none

/-- `sreg[s]` as a value. -/
def SReg.get (r : SReg) : Flag → Bool
  | .c => r.c
  | .z => r.z
  | .n => r.n
  | .v => r.v
  | .s => r.s

/-- `sreg[s] <- b`: only that bit is written; S is not recomputed (R200). -/
def SReg.set (r : SReg) (f : Flag) (b : Bool) : SReg :=
  match f with
  | .c => { r with c := b }
  | .z => { r with z := b }
  | .n => { r with n := b }
  | .v => { r with v := b }
  | .s => { r with s := b }

/-- The flags of a result `r` with the operation's new V and C: `N <- r[7]`, `Z <- (r = 0)`,
`S <- N ^ V` of the new N and V (R142). -/
def SReg.ofResult (r : Byte) (v c : Bool) : SReg where
  c := c
  z := r == 0#8
  n := r.msb
  v := v
  s := r.msb ^^ v

/-- C after ADD: the unsigned sum does not fit in 8 bits (R143). -/
def addCarry (a b : Byte) : Bool := 256 ≤ a.toNat + b.toNat

/-- V after ADD: `A[7] = B[7]` and `r[7] != A[7]` (R143). -/
def addOverflow (a b r : Byte) : Bool := a.msb == b.msb && r.msb != a.msb

/-- C after SUB: the borrow, `A < B` unsigned (R144). -/
def subBorrow (a b : Byte) : Bool := a.toNat < b.toNat

/-- V after SUB: `A[7] != B[7]` and `r[7] != A[7]` (R144). -/
def subOverflow (a b r : Byte) : Bool := a.msb != b.msb && r.msb != a.msb

end Sys2Proof.Machine
end

