-- ==== Sys2Proof/Machine/Operands.lean ====
section
/-! DEFINITION. The operand forms: registers `Ra` and `Rb` are read and written by `State.reg` and
`State.setReg` (R93), the immediate `k` is used as it stands in its three roles (R92), the data
address is `x[b]`, `k`, `sp` or `sp + 1` without change (R55, R60); the status bit operand `s` is resolved here. -/

namespace Sys2Proof.Machine

/-- An instruction on status bit `s`: a reserved bit number is the fault `ReservedStatusBit`, never a
constant 0 or 1 and never a hidden bit (R94, R184, R202; log 12). -/
def withFlag (st : State) (s : StatusNum) (next : Flag → State) : Result :=
  match Flag.ofNum? s with
  | some f => .next (next f)
  | none => .fault (.reservedStatusBit st.iaddr s)

end Sys2Proof.Machine
end

