-- ==== Sys2Proof/Machine/Alu.lean ====
section
/-! DEFINITION. The ALU: its ten operations, their OP codes, results and flags (R140, R142 to R152). -/

namespace Sys2Proof.Machine

/-- The rows of the ALU table, in OP code order (R140). -/
inductive AluOp where
  | add | tra | sub | trb | neg | and | or | eor | ror | rol
deriving DecidableEq, Repr

/-- The OP column of R140, which is no field of an instruction word. -/
def AluOp.code : AluOp → BitVec 4
  | .add => 0b0000#4
  | .tra => 0b0001#4
  | .sub => 0b0010#4
  | .trb => 0b0011#4
  | .neg => 0b0100#4
  | .and => 0b0101#4
  | .or => 0b0110#4
  | .eor => 0b0111#4
  | .ror => 0b1000#4
  | .rol => 0b1001#4

/-- The operation of an OP code; 1010 to 1111 are not assigned (R140). -/
def AluOp.ofCode? (op : BitVec 4) : Option AluOp :=
  match op.toNat with
  | 0b0000 => some .add
  | 0b0001 => some .tra
  | 0b0010 => some .sub
  | 0b0011 => some .trb
  | 0b0100 => some .neg
  | 0b0101 => some .and
  | 0b0110 => some .or
  | 0b0111 => some .eor
  | 0b1000 => some .ror
  | 0b1001 => some .rol
  | _ => none

/-- `SHR(a,c)` = `{c, a[7:1]}` (R8). -/
def shr (a : Byte) (c : Bool) : Byte := BitVec.ofBool c ++ a.extractLsb' 1 7

/-- `SHL(a,c)` = `{a[6:0], c}` (R8). -/
def shl (a : Byte) (c : Bool) : Byte := a.extractLsb' 0 7 ++ BitVec.ofBool c

/-- The column `r` of R140, on ALU inputs `a`, `b` and `ca`. -/
def aluResult (op : AluOp) (a b : Byte) (ca : Bool) : Byte :=
  match op with
  | .add => a + b
  | .tra => a
  | .sub => a - b
  | .trb => b
  | .neg => 0#8 - a
  | .and => a &&& b
  | .or => a ||| b
  | .eor => a ^^^ b
  | .ror => shr a ca
  | .rol => shl a ca

/-- The flag outputs on ALU inputs `a`, `b` and the old status register, whose C is the input `ca`:
ADD R143, SUB R144, AND, OR, EOR R145 (C kept, V 0: log 13, 14), ROR R150, ROL R151 (C the bit shifted
out, V = N ^ C: log 15), TRA and TRB no flag (R140), NEG with free C and V (R152, log 17). -/
def aluFlags (op : AluOp) (a b : Byte) (old : SReg) : SReg :=
  let r := aluResult op a b old.c
  match op with
  | .add => SReg.ofResult r (addOverflow a b r) (addCarry a b)
  | .sub => SReg.ofResult r (subOverflow a b r) (subBorrow a b)
  | .and | .or | .eor => SReg.ofResult r false old.c
  | .ror => SReg.ofResult r (r.msb ^^ a.getLsbD 0) (a.getLsbD 0)
  | .rol => SReg.ofResult r (r.msb ^^ a.getLsbD 7) (a.getLsbD 7)
  | .neg => SReg.ofResult r (Config.negOverflow a) (Config.negCarry a)
  | .tra | .trb => old

/-- An ALU instruction (R141, R142): the output `r` to `x[a]` and the flag outputs to `sreg`, together,
both from the values before the instruction. -/
def State.alu (s : State) (op : AluOp) (a : RegNum) (x y : Byte) : State :=
  (s.setReg a (aluResult op x y s.sreg.c)).setSreg (aluFlags op x y s.sreg)

/-- A two-operand ALU instruction: ALU input `a` = `x[a]`, `b` = `x[b]` (R141). -/
def State.aluTwo (s : State) (op : AluOp) (a b : RegNum) : State :=
  s.alu op a (s.reg a) (s.reg b)

/-- A one-operand ALU instruction: ALU input `a` = `x[a]`; its row of R140 does not use input `b`. -/
def State.aluOne (s : State) (op : AluOp) (a : RegNum) : State := s.alu op a (s.reg a) 0#8

end Sys2Proof.Machine
end

