-- ==== Sys2Proof/Machine/Arithmetic.lean ====
section
/-! DEFINITION. Arithmetic, logic and rotate instructions (`41_arithmetic_logic.md` R141 to R151). -/

namespace Sys2Proof.Machine

/-- `ADD Ra,Rb` (R143). -/
def execAdd (a b : RegNum) (s : State) : Result := .next (s.aluTwo .add a b)

/-- `SUB Ra,Rb` (R144). -/
def execSub (a b : RegNum) (s : State) : Result := .next (s.aluTwo .sub a b)

/-- `AND Ra,Rb` (R146). -/
def execAnd (a b : RegNum) (s : State) : Result := .next (s.aluTwo .and a b)

/-- `OR Ra,Rb` (R147). -/
def execOr (a b : RegNum) (s : State) : Result := .next (s.aluTwo .or a b)

/-- `EOR Ra,Rb` (R148). -/
def execEor (a b : RegNum) (s : State) : Result := .next (s.aluTwo .eor a b)

/-- `ROR Ra` (R150). -/
def execRor (a : RegNum) (s : State) : Result := .next (s.aluOne .ror a)

/-- `ROL Ra` (R151). -/
def execRol (a : RegNum) (s : State) : Result := .next (s.aluOne .rol a)

end Sys2Proof.Machine
end

