-- ==== Sys2Proof/Machine/Control.lean ====
section
/-! DEFINITION. Control instructions (`42_control.md` R180 to R185). -/

namespace Sys2Proof.Machine

/-- `STOP`: `halted <- 1` (R180). `pc` stays as the step left it; it is not to be relied on (log 11). -/
def execStop (s : State) : Result := .next s.halt

/-- `JMP k`: `pc <- k` (R182). -/
def execJmp (k : Byte) (s : State) : Result := .next (s.setPc k)

/-- `BRBS s,k`: `if sreg[s] = 1 then pc <- k` (R183, R184). -/
def execBrbs (sb : StatusNum) (k : Byte) (s : State) : Result :=
  withFlag s sb fun f => s.branchIf (s.sreg.get f) k

/-- `BRBC s,k`: `if sreg[s] = 0 then pc <- k` (R185, R184). -/
def execBrbc (sb : StatusNum) (k : Byte) (s : State) : Result :=
  withFlag s sb fun f => s.branchIf (!s.sreg.get f) k

end Sys2Proof.Machine
end

