-- ==== Sys2Proof/Machine/DataTransfer.lean ====
section
/-! DEFINITION. Data transfer instructions (`40_data_transfer.md` R120 to R126). `pc` already holds
the address of the next instruction (R9), so a meaning that does not write it falls through. -/

namespace Sys2Proof.Machine

/-- `LDI Ra,k`: `x[a] <- k` (R121). -/
def execLdi (a : RegNum) (k : Byte) (s : State) : Result := .next (s.setReg a k)

/-- `MOV Ra,Rb`: `x[a] <- x[b]` (R122). -/
def execMov (a b : RegNum) (s : State) : Result := .next (s.setReg a (s.reg b))

/-- `LD Ra,Rb`: `x[a] <- MemRead(x[b], 1)` (R123). -/
def execLd (a b : RegNum) (s : State) : Result := readThen s (s.reg b) fun v => s.setReg a v

/-- `ST Rb,Ra`: `MemWrite(x[b], 1, x[a])` (R124). -/
def execSt (a b : RegNum) (s : State) : Result := writeThen s (s.reg b) (s.reg a) id

/-- `LDS Ra,k`: `x[a] <- MemRead(k, 1)` (R125). -/
def execLds (a : RegNum) (k : Byte) (s : State) : Result := readThen s k fun v => s.setReg a v

/-- `STS k,Ra`: `MemWrite(k, 1, x[a])` (R126). -/
def execSts (a : RegNum) (k : Byte) (s : State) : Result := writeThen s k (s.reg a) id

end Sys2Proof.Machine
end

