-- ==== Sys2Proof/Machine/Stack.lean ====
section
/-! DEFINITION. Stack and subroutine instructions (`44_stack.md` R210 to R214). -/

namespace Sys2Proof.Machine

/-- `PUSH Ra`: `datamem[sp] <- x[a]; sp <- sp - 1` (R210). -/
def execPush (a : RegNum) (s : State) : Result := pushThen s (s.reg a) id

/-- `POP Ra`: `x[a] <- datamem[sp+1]; sp <- sp + 1` (R211). -/
def execPop (a : RegNum) (s : State) : Result := popThen s fun v t => t.setReg a v

/-- `CALL k`: `datamem[sp] <- pc; pc <- k; sp <- sp - 1`, where `pc` is the address of the instruction
after the CALL (R212). -/
def execCall (k : Byte) (s : State) : Result := pushThen s s.pc fun t => t.setPc k

/-- `RET`: `pc <- datamem[sp+1]; sp <- sp + 1` (R213). -/
def execRet (s : State) : Result := popThen s fun v t => t.setPc v

end Sys2Proof.Machine
end

