-- ==== Sys2Proof/Machine/Status.lean ====
section
/-! DEFINITION. Status register instructions (`43_status.md` R200 to R202). -/

namespace Sys2Proof.Machine

/-- `BCLR s`: `sreg[s] <- 0` (R200, R202). -/
def execBclr (sb : StatusNum) (s : State) : Result :=
  withFlag s sb fun f => s.setSreg (s.sreg.set f false)

/-- `BSET s`: `sreg[s] <- 1` (R201, R202). -/
def execBset (sb : StatusNum) (s : State) : Result :=
  withFlag s sb fun f => s.setSreg (s.sreg.set f true)

end Sys2Proof.Machine
end

