-- ==== Sys2Proof/Syntax.lean ====
section
/-! DEFINITION. The abstract syntax: one constructor per row of `spec/opcode_table.json`. Operands
carry the names of the fields of `30_encoding.md` R82, whatever their order in the assembly text. -/

namespace Sys2Proof

/-- The 23 instructions of R81, in op code order. -/
inductive Instr where
  /-- `LDI Ra,k` (R121). -/
  | ldi (a : RegNum) (k : Byte)
  /-- `MOV Ra,Rb` (R122). -/
  | mov (a b : RegNum)
  /-- `ADD Ra,Rb` (R143). -/
  | add (a b : RegNum)
  /-- `SUB Ra,Rb` (R144). -/
  | sub (a b : RegNum)
  /-- `STOP` (R180). -/
  | stop
  /-- `LD Ra,Rb`: `b` holds the address (R123). -/
  | ld (a b : RegNum)
  /-- `ST Rb,Ra`: `a` holds the value, `b` the address (R124). -/
  | st (a b : RegNum)
  /-- `LDS Ra,k` (R125). -/
  | lds (a : RegNum) (k : Byte)
  /-- `STS k,Ra` (R126). -/
  | sts (a : RegNum) (k : Byte)
  /-- `JMP k` (R182). -/
  | jmp (k : Byte)
  /-- `BRBS s,k` (R183). -/
  | brbs (s : StatusNum) (k : Byte)
  /-- `BRBC s,k` (R185). -/
  | brbc (s : StatusNum) (k : Byte)
  /-- `AND Ra,Rb` (R146). -/
  | and (a b : RegNum)
  /-- `OR Ra,Rb` (R147). -/
  | or (a b : RegNum)
  /-- `EOR Ra,Rb` (R148). -/
  | eor (a b : RegNum)
  /-- `ROR Ra` (R150). -/
  | ror (a : RegNum)
  /-- `ROL Ra` (R151). -/
  | rol (a : RegNum)
  /-- `BCLR s` (R200). -/
  | bclr (s : StatusNum)
  /-- `BSET s` (R201). -/
  | bset (s : StatusNum)
  /-- `PUSH Ra` (R210). -/
  | push (a : RegNum)
  /-- `POP Ra` (R211). -/
  | pop (a : RegNum)
  /-- `CALL k` (R212). -/
  | call (k : Byte)
  /-- `RET` (R213). -/
  | ret
deriving DecidableEq, Repr

end Sys2Proof
end

