-- ==== Sys2Proof/Machine/Dispatch.lean ====
section
/-! DEFINITION. One arm per instruction. -/

namespace Sys2Proof.Machine

def exec (i : Instr) (s : State) : Host.Outcome State Fault Refusal :=
  match i with
  | .ldi a k => Sys2Proof.Machine.execLdi a k s
  | .mov a b => Sys2Proof.Machine.execMov a b s
  | .add a b => Sys2Proof.Machine.execAdd a b s
  | .sub a b => Sys2Proof.Machine.execSub a b s
  | .stop => Sys2Proof.Machine.execStop s
  | .ld a b => Sys2Proof.Machine.execLd a b s
  | .st a b => Sys2Proof.Machine.execSt a b s
  | .lds a k => Sys2Proof.Machine.execLds a k s
  | .sts a k => Sys2Proof.Machine.execSts a k s
  | .jmp k => Sys2Proof.Machine.execJmp k s
  | .brbs sb k => Sys2Proof.Machine.execBrbs sb k s
  | .brbc sb k => Sys2Proof.Machine.execBrbc sb k s
  | .and a b => Sys2Proof.Machine.execAnd a b s
  | .or a b => Sys2Proof.Machine.execOr a b s
  | .eor a b => Sys2Proof.Machine.execEor a b s
  | .ror a => Sys2Proof.Machine.execRor a s
  | .rol a => Sys2Proof.Machine.execRol a s
  | .bclr sb => Sys2Proof.Machine.execBclr sb s
  | .bset sb => Sys2Proof.Machine.execBset sb s
  | .push a => Sys2Proof.Machine.execPush a s
  | .pop a => Sys2Proof.Machine.execPop a s
  | .call k => Sys2Proof.Machine.execCall k s
  | .ret => Sys2Proof.Machine.execRet s

end Sys2Proof.Machine
end

