-- ==== Sys2Proof/WellFormed.lean ====
section
/-! DEFINITION. Which instructions are well formed. Register numbers, immediates and op codes are
right by their types; the one check left is the status bit number (`30_encoding.md` R94). -/

namespace Sys2Proof

/-- The status bit operand of an instruction that has one: formats SK and S (R83). -/
def Instr.statusOperand : Instr → Option StatusNum
  | .brbs s _ | .brbc s _ | .bclr s | .bset s => some s
  | .ldi _ _ | .mov _ _ | .add _ _ | .sub _ _ | .stop | .ld _ _ | .st _ _ | .lds _ _ | .sts _ _
  | .jmp _ | .and _ _ | .or _ _ | .eor _ _ | .ror _ | .rol _ | .push _ | .pop _ | .call _
  | .ret => none

/-- Bit numbers 0 to 4 name a flag; 5, 6 and 7 are reserved (R94). -/
def StatusNum.named (s : StatusNum) : Bool := s.val ≤ 4

/-- An instruction is well formed when its status bit operand, if it has one, names a flag. -/
def Instr.wellFormed (i : Instr) : Bool :=
  match i.statusOperand with
  | some s => StatusNum.named s
  | none => true

end Sys2Proof
end

