-- ==== Sys2Proof/Decode.lean ====
section
/-! DEFINITION. Instruction words: formats, decoder, encoder (`30_encoding.md` R80 to R84, R92 to R97). -/

namespace Sys2Proof

/-- The seven formats (R83). -/
inductive Format where
  | RK | RR | R | K | SK | S | N
deriving DecidableEq, Repr

/-- The mask column of R83: the bits that a format fixes, op code and must-be-zero bits. -/
def Format.mask : Format → CodeWord
  | .RK => 0xF800#16
  | .RR => 0xF81F#16
  | .R => 0xF8FF#16
  | .K => 0xFF00#16
  | .SK => 0xF800#16
  | .S => 0xF8FF#16
  | .N => 0xFFFF#16

/-- The instructions column of R83. -/
def Instr.format : Instr → Format
  | .ldi _ _ | .lds _ _ | .sts _ _ => .RK
  | .mov _ _ | .add _ _ | .sub _ _ | .ld _ _ | .st _ _ | .and _ _ | .or _ _ | .eor _ _ => .RR
  | .ror _ | .rol _ | .push _ | .pop _ => .R
  | .jmp _ | .call _ => .K
  | .brbs _ _ | .brbc _ _ => .SK
  | .bclr _ | .bset _ => .S
  | .stop | .ret => .N

/-- Field `op`, bits 15:11 (R82). -/
def fieldOp (w : CodeWord) : BitVec 5 := w.extractLsb' 11 5

/-- Field `a`, bits 10:8 (R82). -/
def fieldA (w : CodeWord) : RegNum := (w.extractLsb' 8 3).toFin

/-- Field `s`, bits 10:8, the position of `a` (R82). -/
def fieldS (w : CodeWord) : StatusNum := (w.extractLsb' 8 3).toFin

/-- Field `b`, bits 7:5 (R82). -/
def fieldB (w : CodeWord) : RegNum := (w.extractLsb' 5 3).toFin

/-- Field `k`, bits 7:0 (R82, R92). -/
def fieldK (w : CodeWord) : Byte := w.extractLsb' 0 8

/-- The op code map of R81 and R95, with the fields of the instruction's format read from the word
(R84 steps 2 and 4); none for the nine unassigned op codes (R96). -/
def selectInstr (w : CodeWord) : Option Instr :=
  match (fieldOp w).toNat with
  | 0b00001 => some (.ldi (fieldA w) (fieldK w))
  | 0b00010 => some (.mov (fieldA w) (fieldB w))
  | 0b00011 => some (.add (fieldA w) (fieldB w))
  | 0b00100 => some (.sub (fieldA w) (fieldB w))
  | 0b00101 => some .stop
  | 0b00110 => some (.ld (fieldA w) (fieldB w))
  | 0b00111 => some (.st (fieldA w) (fieldB w))
  | 0b01000 => some (.lds (fieldA w) (fieldK w))
  | 0b01001 => some (.sts (fieldA w) (fieldK w))
  | 0b01010 => some (.jmp (fieldK w))
  | 0b01011 => some (.brbs (fieldS w) (fieldK w))
  | 0b01100 => some (.brbc (fieldS w) (fieldK w))
  | 0b01101 => some (.and (fieldA w) (fieldB w))
  | 0b01110 => some (.or (fieldA w) (fieldB w))
  | 0b01111 => some (.eor (fieldA w) (fieldB w))
  | 0b10000 => some (.ror (fieldA w))
  | 0b10001 => some (.rol (fieldA w))
  | 0b10010 => some (.bclr (fieldS w))
  | 0b10011 => some (.bset (fieldS w))
  | 0b10100 => some (.push (fieldA w))
  | 0b10101 => some (.pop (fieldA w))
  | 0b10110 => some (.call (fieldK w))
  | 0b10111 => some .ret
  | _ => none

/-- Why a word is no instruction: the three decode faults of R84, without the address. -/
inductive DecodeFault where
  /-- The op code is unassigned (R96). -/
  | illegalInstruction
  /-- A must-be-zero bit of the format is 1 (R97). -/
  | reservedEncoding
  /-- The status bit number is 5, 6 or 7 (R94). -/
  | reservedStatusBit (s : StatusNum)
deriving DecidableEq, Repr

/-- Step 3 of R84: outside its op code, the word has 1 only in bits its format gives a field. -/
def zeroBitsOk (i : Instr) (w : CodeWord) : Bool :=
  w &&& i.format.mask == (fieldOp w).zeroExtend 16 <<< 11

/-- Decoding a word, total, the checks in the order of R84. -/
def decode (w : CodeWord) : Except DecodeFault Instr :=
  match selectInstr w with
  | none => .error .illegalInstruction
  | some i =>
    if zeroBitsOk i w then
      match i.statusOperand with
      | some s => if StatusNum.named s then .ok i else .error (.reservedStatusBit s)
      | none => .ok i
    else .error .reservedEncoding

/-- The pattern `ooooo aaa kkkkkkkk` of formats RK and SK (R83). -/
def wordRK (op : BitVec 5) (a : Fin 8) (k : Byte) : CodeWord := (op ++ BitVec.ofFin (w := 3) a) ++ k

/-- The pattern `ooooo aaa bbb 00000` of format RR (R83). -/
def wordRR (op : BitVec 5) (a b : RegNum) : CodeWord :=
  wordRK op a (BitVec.ofFin (w := 3) b ++ 0#5)

/-- The pattern `ooooo aaa 00000000` of formats R and S (R83). -/
def wordR (op : BitVec 5) (a : Fin 8) : CodeWord := wordRK op a 0#8

/-- The pattern `ooooo 000 kkkkkkkk` of format K (R83). -/
def wordK (op : BitVec 5) (k : Byte) : CodeWord := wordRK op 0 k

/-- The pattern `ooooo 000 00000000` of format N (R83). -/
def wordN (op : BitVec 5) : CodeWord := wordRK op 0 0#8

/-- The word of an instruction: the op codes of R81 in the patterns of R83. -/
def encode : Instr → CodeWord
  | .ldi a k => wordRK 0b00001#5 a k
  | .mov a b => wordRR 0b00010#5 a b
  | .add a b => wordRR 0b00011#5 a b
  | .sub a b => wordRR 0b00100#5 a b
  | .stop => wordN 0b00101#5
  | .ld a b => wordRR 0b00110#5 a b
  | .st a b => wordRR 0b00111#5 a b
  | .lds a k => wordRK 0b01000#5 a k
  | .sts a k => wordRK 0b01001#5 a k
  | .jmp k => wordK 0b01010#5 k
  | .brbs s k => wordRK 0b01011#5 s k
  | .brbc s k => wordRK 0b01100#5 s k
  | .and a b => wordRR 0b01101#5 a b
  | .or a b => wordRR 0b01110#5 a b
  | .eor a b => wordRR 0b01111#5 a b
  | .ror a => wordR 0b10000#5 a
  | .rol a => wordR 0b10001#5 a
  | .bclr s => wordR 0b10010#5 s
  | .bset s => wordR 0b10011#5 s
  | .push a => wordR 0b10100#5 a
  | .pop a => wordR 0b10101#5 a
  | .call k => wordK 0b10110#5 k
  | .ret => wordN 0b10111#5

/-- The table's numbering of a row's bits read by the decoder: the low `nbits` bits of `w`, every
bit above them 0 (one 16-bit word per instruction, R80; log 26). -/
def tableWord (nbits w : Nat) : CodeWord := BitVec.ofNat 16 (w % 2 ^ nbits)

/-- The instruction the decoder reads from a row of the opcode table. -/
def decodeTableWord (nbits w : Nat) : Option Instr := (decode (tableWord nbits w)).toOption

end Sys2Proof
end

