-- ==== Sys2Proof/Machine/Fetch.lean ====
section
/-! DEFINITION. Fetching and decoding the instruction at `pc` (R9, R54, R84), the faults in the order
of R233. -/

namespace Sys2Proof.Machine

/-- A decode fault at an address: the values it records (R232). -/
def faultAt (iaddr : Byte) (w : CodeWord) : DecodeFault → Fault
  | .illegalInstruction => .illegalInstruction iaddr w
  | .reservedEncoding => .reservedEncoding iaddr w
  | .reservedStatusBit s => .reservedStatusBit iaddr s

/-- The instruction at `pc`, or the fault of its fetch or its decoding. -/
def State.fetch (s : State) : Except Fault Instr :=
  match s.codeWord s.pc with
  | none => .error (.fetchOfUnwritten s.pc)
  | some w =>
    match decode w with
    | .ok i => .ok i
    | .error e => .error (faultAt s.pc w e)

/-- The state in which an instruction's rule runs: `pc` is the next address, modulo 256 (R9, R24). -/
def State.advance (s : State) : State := s.setPc (s.pc + 1)

/-- The host's load of one word where the next step fetches (log 9, 27): the word at `pc`, and the
machine not halted, since a halted machine fetches nothing. -/
def State.placeAtPc (s : State) (w : CodeWord) : State := { s.placeWord s.pc w with halted := false }

end Sys2Proof.Machine
end

