-- ==== Sys2Proof/Machine/Step.lean ====
section
/-! DEFINITION. One step of the machine: the instruction cycle of `00_scope.md` R9. -/

namespace Sys2Proof.Machine

/-- One step: none when halted; else fetch, advance `pc`, decode, execute. A fault carries no state,
so a faulting step changes nothing (R234; log 20). -/
def step (s : State) : Host.Outcome State Fault Refusal :=
  if s.halted then .refused .halted
  else
    match s.fetch with
    | .error f => .fault f
    | .ok i => exec i s.advance

/-- The state with the instruction of an opcode-table row placed where the next step fetches. -/
def State.withFetchWord (s : State) (nbits w : Nat) : State := s.placeAtPc (tableWord nbits w)

end Sys2Proof.Machine
end

