-- ==== Sys2Proof/Machine/Pseudo.lean ====
section
/-! DEFINITION. The 24 pseudo-instructions (R101, R186, R203): second spellings that the assembler
replaces by one real instruction; they have no encoding and no meaning of their own. -/

namespace Sys2Proof.Machine

/-- The source's pseudo-instruction tables, each spelling once. -/
inductive Pseudo where
  | brcs (k : Byte) | brlo (k : Byte) | brzs (k : Byte) | breq (k : Byte) | brmi (k : Byte)
  | brvs (k : Byte) | brlt (k : Byte) | brcc (k : Byte) | brsh (k : Byte) | brzc (k : Byte)
  | brne (k : Byte) | brpl (k : Byte) | brvc (k : Byte) | brge (k : Byte)
  | clc | clz | cln | clv | cls | sec | sez | sen | sev | ses
deriving DecidableEq, Repr

/-- The real instruction of a pseudo-instruction (R186, R203). -/
def Pseudo.expand : Pseudo → Instr
  | .brcs k | .brlo k => .brbs 0 k
  | .brzs k | .breq k => .brbs 1 k
  | .brmi k => .brbs 2 k
  | .brvs k => .brbs 3 k
  | .brlt k => .brbs 4 k
  | .brcc k | .brsh k => .brbc 0 k
  | .brzc k | .brne k => .brbc 1 k
  | .brpl k => .brbc 2 k
  | .brvc k => .brbc 3 k
  | .brge k => .brbc 4 k
  | .clc => .bclr 0
  | .clz => .bclr 1
  | .cln => .bclr 2
  | .clv => .bclr 3
  | .cls => .bclr 4
  | .sec => .bset 0
  | .sez => .bset 1
  | .sen => .bset 2
  | .sev => .bset 3
  | .ses => .bset 4

/-- The word the assembler emits for a pseudo-instruction: its real instruction's (R101). -/
def Pseudo.word (p : Pseudo) : CodeWord := encode p.expand

end Sys2Proof.Machine
end

