-- ==== Sys2Proof/Safety.lean ====
section
/-! DEFINITION. The terms that claims are made in: runs, safe runs, what stays the same (frames), and the
spec's tables of who reads and writes what (R22, R32, R55), written apart from the meanings. -/

namespace Sys2Proof

open Sys2Proof.Machine

/-! ### Runs -/

/-- A run ends in `t`: STOP has executed (R263). -/
def RunEnds (s t : State) : Prop := ∃ n, core.run n s = .next t ∧ t.halted = true

/-- A run is safe when it never faults: from every state it reaches in which the machine is not
halted there is a next state (R232, R263). -/
def SafeRun (s : State) : Prop :=
  ∀ (n : Nat) (t : State), core.run n s = .next t → t.halted = false → ∃ u, step t = .next u

/-- `n` times the same instruction, without fetching it. -/
def execTimes (i : Instr) : Nat → State → Result
  | 0, s => .next s
  | n + 1, s =>
    match exec i s with
    | .next t => execTimes i n t
    | .fault f => .fault f
    | .refused r => .refused r

/-! ### Frames -/

/-- Every general register as before. -/
def SameRegs (s t : State) : Prop := ∀ r : RegNum, t.reg r = s.reg r

/-- Every general register but `a` as before. -/
def SameRegsBut (a : RegNum) (s t : State) : Prop := ∀ r : RegNum, r ≠ a → t.reg r = s.reg r

/-- Every data cell reads as before. -/
def SameData (s t : State) : Prop := ∀ x : Byte, t.cell x = s.cell x

/-- Every data cell but `a` reads as before. -/
def SameDataBut (a : Byte) (s t : State) : Prop := ∀ x : Byte, x ≠ a → t.cell x = s.cell x

/-- Code memory, the halted bit and the open parameters as before. -/
def SameRest (s t : State) : Prop :=
  t.codemem = s.codemem ∧ t.halted = s.halted ∧ t.cfg = s.cfg

/-! ### The status register by bit number -/

/-- The bits of `sreg` from bit 0: C, Z, N, V, S (R26). -/
def statusBits (r : SReg) : List Bool := [r.c, r.z, r.n, r.v, r.s]

/-- The bit number of a flag (R26). -/
def flagNumber : Flag → Nat
  | .c => 0
  | .z => 1
  | .n => 2
  | .v => 3
  | .s => 4

/-! ### The spec's tables -/

/-- The general register an instruction writes (R22). -/
def Instr.dest : Instr → Option RegNum
  | .ldi a _ | .mov a _ | .add a _ | .sub a _ | .ld a _ | .lds a _ | .and a _ | .or a _
  | .eor a _ | .ror a | .rol a | .pop a => some a
  | .stop | .st _ _ | .sts _ _ | .jmp _ | .brbs _ _ | .brbc _ _ | .bclr _ | .bset _ | .push _
  | .call _ | .ret => none

/-- The address an instruction stores to (R55). -/
def Instr.storeAddress (i : Instr) (s : State) : Option Byte :=
  match i with
  | .st _ b => some (s.reg b)
  | .sts _ k => some k
  | .push _ | .call _ => some s.sp
  | .ldi _ _ | .mov _ _ | .add _ _ | .sub _ _ | .stop | .ld _ _ | .lds _ _ | .jmp _ | .brbs _ _
  | .brbc _ _ | .and _ _ | .or _ _ | .eor _ _ | .ror _ | .rol _ | .bclr _ | .bset _ | .pop _
  | .ret => none

/-- The value an instruction stores; inside a rule `pc` is the address of the next instruction (R55). -/
def Instr.storeValue (i : Instr) (s : State) : Option Byte :=
  match i with
  | .st a _ | .sts a _ | .push a => some (s.reg a)
  | .call _ => some s.pc
  | .ldi _ _ | .mov _ _ | .add _ _ | .sub _ _ | .stop | .ld _ _ | .lds _ _ | .jmp _ | .brbs _ _
  | .brbc _ _ | .and _ _ | .or _ _ | .eor _ _ | .ror _ | .rol _ | .bclr _ | .bset _ | .pop _
  | .ret => none

/-- The address an instruction loads from (R55). -/
def Instr.loadAddress (i : Instr) (s : State) : Option Byte :=
  match i with
  | .ld _ b => some (s.reg b)
  | .lds _ k => some k
  | .pop _ | .ret => some (s.sp + 1)
  | .ldi _ _ | .mov _ _ | .add _ _ | .sub _ _ | .stop | .st _ _ | .sts _ _ | .jmp _ | .brbs _ _
  | .brbc _ _ | .and _ _ | .or _ _ | .eor _ _ | .ror _ | .rol _ | .bclr _ | .bset _ | .push _
  | .call _ => none

/-- The one data access of an instruction, if it makes one (R55). -/
def Instr.dataAddress (i : Instr) (s : State) : Option Byte :=
  (i.storeAddress s).orElse fun _ => i.loadAddress s

/-- The flags an instruction writes (R32). -/
def Instr.writesFlag (i : Instr) (f : Flag) : Bool :=
  match i with
  | .add _ _ | .sub _ _ | .ror _ | .rol _ => true
  | .and _ _ | .or _ _ | .eor _ _ => f != .c
  | .bclr s | .bset s => s.val == flagNumber f
  | .ldi _ _ | .mov _ _ | .stop | .ld _ _ | .st _ _ | .lds _ _ | .sts _ _ | .jmp _ | .brbs _ _
  | .brbc _ _ | .push _ | .pop _ | .call _ | .ret => false

/-- The flags an instruction reads (R32). -/
def Instr.readsFlag (i : Instr) (f : Flag) : Bool :=
  match i with
  | .ror _ | .rol _ => f == .c
  | .brbs s _ | .brbc s _ => s.val == flagNumber f
  | .ldi _ _ | .mov _ _ | .add _ _ | .sub _ _ | .stop | .ld _ _ | .st _ _ | .lds _ _ | .sts _ _
  | .jmp _ | .and _ _ | .or _ _ | .eor _ _ | .bclr _ | .bset _ | .push _ | .pop _ | .call _
  | .ret => false

/-- The seven ALU instructions with the register they write (R141). -/
def Instr.aluDest : Instr → Option RegNum
  | .add a _ | .sub a _ | .and a _ | .or a _ | .eor a _ | .ror a | .rol a => some a
  | .ldi _ _ | .mov _ _ | .stop | .ld _ _ | .st _ _ | .lds _ _ | .sts _ _ | .jmp _ | .brbs _ _
  | .brbc _ _ | .bclr _ | .bset _ | .push _ | .pop _ | .call _ | .ret => none

/-! ### Words from numbers -/

/-- A register or status bit number in the position `n << 8` of a word. -/
def at8 (n : Fin 8) : CodeWord := BitVec.ofNat 16 n.val <<< 8

/-- A register number in the position `n << 5` of a word. -/
def at5 (n : Fin 8) : CodeWord := BitVec.ofNat 16 n.val <<< 5

/-- An immediate in the low bits of a word. -/
def imm (k : Byte) : CodeWord := k.setWidth 16

end Sys2Proof
end

