-- ==== Sys2Proof/Certificates/Slice0/Obligations.lean ====
section
/-! DEFINITION. The statements about the machine, from the numbered rules of the spec. -/

namespace Sys2Proof.Claims

open Sys2Proof Sys2Proof.Machine

/-- What R145 to R148 say of a logic instruction `i` that combines bits by `f`: the result bit by bit,
N, Z and S from it, V 0, C kept, nothing else changed. -/
def LogicOutcome (i : Instr) (f : Bool → Bool → Bool) (a b : RegNum) (s : State) : Prop :=
  ∃ t, exec i s = .next t ∧
    (∀ j < 8, (t.reg a).getLsbD j = f ((s.reg a).getLsbD j) ((s.reg b).getLsbD j)) ∧
    t.sreg.n = (t.reg a).getLsbD 7 ∧ (t.sreg.z = true ↔ t.reg a = 0x00#8) ∧
    t.sreg.v = false ∧ t.sreg.s = t.sreg.n ∧ t.sreg.c = s.sreg.c ∧
    SameRegsBut a s t ∧ t.pc = s.pc ∧ t.sp = s.sp ∧ SameData s t ∧ SameRest s t

/-- What an instruction that stores `v` at `x` leaves: on a platform address the fault and nothing
else, elsewhere a next state for which `rest` holds and, data memory being canonical, that cell and
no other written. -/
def StoreOutcome (i : Instr) (x v : Byte) (s : State) (rest : State → Prop) : Prop :=
  (x ∈ s.cfg.platformRegions → exec i s = .fault (.unmodelledRegion x)) ∧
  (x ∉ s.cfg.platformRegions → ∃ t, exec i s = .next t ∧ SameRegs s t ∧ t.sreg = s.sreg ∧
    SameRest s t ∧ rest t ∧ (Memory.wf s.datamem → t.cell x = v ∧ SameDataBut x s t))

/-- What an instruction that loads from `x` leaves: on a platform address the fault, elsewhere a next
state with no flag, no data cell and nothing of the rest changed, for which `rest` holds. -/
def LoadOutcome (i : Instr) (x : Byte) (s : State) (rest : State → Prop) : Prop :=
  (x ∈ s.cfg.platformRegions → exec i s = .fault (.unmodelledRegion x)) ∧
  (x ∉ s.cfg.platformRegions → ∃ t, exec i s = .next t ∧ t.sreg = s.sreg ∧ SameData s t ∧
    SameRest s t ∧ rest t)

/-- What a branch on status bit number `sb`, taken when the bit equals `want`, does: bits 0 to 4 are
tested and only `pc` can change; the word of bit numbers 5 to 7 is refused. What `exec` answers to the
ill-formed term, the last clause, is the model's choice (log 12). -/
def BranchOutcome (i : Instr) (w : CodeWord) (sb : StatusNum) (want : Bool) (k : Byte) (s : State) :
    Prop :=
  (∀ bit, (statusBits s.sreg)[sb.val]? = some bit → decode w = .ok i ∧
    ∃ t, exec i s = .next t ∧ t.pc = (if bit = want then k else s.pc) ∧ SameRegs s t ∧
      t.sreg = s.sreg ∧ t.sp = s.sp ∧ SameData s t ∧ SameRest s t) ∧
  ((statusBits s.sreg)[sb.val]? = none → decode w = .error (.reservedStatusBit sb) ∧
    exec i s = .fault (.reservedStatusBit (s.pc - 1) sb))

/-- What BCLR and BSET do: status bit number `sb` takes the value `b`, the other four keep theirs,
nothing else changes; the word of bit numbers 5 to 7 is refused. What `exec` answers to the ill-formed
term, the last clause, is the model's choice (log 12). -/
def StatusOutcome (i : Instr) (w : CodeWord) (sb : StatusNum) (b : Bool) (s : State) : Prop :=
  (sb.val ≤ 4 → decode w = .ok i ∧
    ∃ t, exec i s = .next t ∧ statusBits t.sreg = (statusBits s.sreg).set sb.val b ∧
      SameRegs s t ∧ t.pc = s.pc ∧ t.sp = s.sp ∧ SameData s t ∧ SameRest s t) ∧
  (4 < sb.val → decode w = .error (.reservedStatusBit sb) ∧
    exec i s = .fault (.reservedStatusBit (s.pc - 1) sb))

/-- The number of an op code, the five most significant bits of the word (R81). -/
def opNumber (w : CodeWord) : Nat := w.toNat / 2048

/-- The must-be-zero bits of each op code, from the patterns of R83. -/
def mustBeZero (op : Nat) : CodeWord :=
  if op ∈ [1, 8, 9, 11, 12] then 0x0000#16
  else if op ∈ [2, 3, 4, 6, 7, 13, 14, 15] then 0x001F#16
  else if op ∈ [16, 17, 18, 19, 20, 21] then 0x00FF#16
  else if op ∈ [10, 22] then 0x0700#16
  else 0x07FF#16

/-- The status bit number of the words that have one: formats SK and S (R83). -/
def statusNumber (w : CodeWord) : Option StatusNum :=
  if opNumber w ∈ [11, 12, 18, 19] then some (Fin.ofNat 8 (w.toNat / 256)) else none

/-- The pc that R24 gives after an instruction other than STOP that was fetched at `s.pc`. -/
def pcAfter (i : Instr) (s : State) : Nat :=
  match i with
  | .jmp k | .call k => k.toNat
  | .brbs sb k => if (statusBits s.sreg)[sb.val]? = some true then k.toNat else (s.pc.toNat + 1) % 256
  | .brbc sb k => if (statusBits s.sreg)[sb.val]? = some false then k.toNat else (s.pc.toNat + 1) % 256
  | .ret => (s.cell (s.sp + 1)).toNat
  | .ldi _ _ | .mov _ _ | .add _ _ | .sub _ _ | .stop | .ld _ _ | .st _ _ | .lds _ _ | .sts _ _
  | .and _ _ | .or _ _ | .eor _ _ | .ror _ | .rol _ | .bclr _ | .bset _ | .push _ | .pop _ =>
    (s.pc.toNat + 1) % 256

/-- The sp that R25 and R214 give after an instruction. -/
def spAfter (i : Instr) (sp : Nat) : Nat :=
  match i with
  | .push _ | .call _ => (sp + 255) % 256
  | .pop _ | .ret => (sp + 1) % 256
  | .ldi _ _ | .mov _ _ | .add _ _ | .sub _ _ | .stop | .ld _ _ | .st _ _ | .lds _ _ | .sts _ _
  | .jmp _ | .brbs _ _ | .brbc _ _ | .and _ _ | .or _ _ | .eor _ _ | .ror _ | .rol _ | .bclr _
  | .bset _ => sp

/-- A program has this instruction at `pc`. -/
def Fetches (s : State) (i : Instr) : Prop :=
  ∃ w, s.codeWord s.pc = some w ∧ decode w = .ok i

end Sys2Proof.Claims

open Sys2Proof Sys2Proof.Machine Sys2Proof.Claims

/-! ### Encoding -/

/-- R82 to R84: every instruction with a legal status bit number is read back from its word. -/
def Obligations.DecodeInvertsEncode : Prop :=
  ∀ i : Instr, i.wellFormed = true → decode (encode i) = .ok i

/-- R84, R97: an accepted word is the one word of its instruction, and the instruction is well formed. -/
def Obligations.AcceptedWordIsTheEncoding : Prop :=
  ∀ (w : CodeWord) (i : Instr), decode w = .ok i → encode i = w ∧ i.wellFormed = true

/-- R84, R94, R96, R97: which words raise which decode fault, in R84's order, said by op code numbers
and must-be-zero bits of the word itself. -/
def Obligations.DecodeFaultsByWord : Prop :=
  ∀ w : CodeWord,
    (decode w = .error .illegalInstruction ↔ opNumber w = 0 ∨ 24 ≤ opNumber w) ∧
    (decode w = .error .reservedEncoding ↔
      1 ≤ opNumber w ∧ opNumber w ≤ 23 ∧ w &&& mustBeZero (opNumber w) ≠ 0) ∧
    (∀ n, decode w = .error (.reservedStatusBit n) ↔
      w &&& mustBeZero (opNumber w) = 0 ∧ statusNumber w = some n ∧ 4 < n.val)

/-- Words written out from the spec's encoding, one or two of each format, decode to the instruction
they stand for (`95_test_vectors.md` section 2.1). -/
def Obligations.SpecWordsDecode : Prop :=
  decode 0b0000101100101010#16 = .ok (.ldi 3 0x2A#8) ∧
  decode 0b0001000101000000#16 = .ok (.mov 1 2) ∧
  decode 0b0011100011100000#16 = .ok (.st 0 7) ∧
  decode 0b0111011011100000#16 = .ok (.or 6 7) ∧
  decode 0b1000001100000000#16 = .ok (.ror 3) ∧
  decode 0b1011000001000000#16 = .ok (.call 0x40#8) ∧
  decode 0b0110010000000011#16 = .ok (.brbc 4 0x03#8) ∧
  decode 0b1001110000000000#16 = .ok (.bset 4) ∧
  decode 0b1011100000000000#16 = .ok .ret ∧
  decode 0b0000000000000000#16 = .error .illegalInstruction ∧
  decode 0b0001000101000001#16 = .error .reservedEncoding ∧
  decode 0b1001011100000001#16 = .error .reservedEncoding ∧
  decode 0b1001110100000000#16 = .error (.reservedStatusBit 5)

/-! ### Data transfer -/

/-- R121. -/
def Obligations.LdiLoadsImmediate : Prop :=
  ∀ (a : RegNum) (k : Byte) (s : State),
    decode (0x0800#16 ||| at8 a ||| imm k) = .ok (.ldi a k) ∧
    ∃ t, exec (.ldi a k) s = .next t ∧ t.reg a = k ∧ SameRegsBut a s t ∧ t.sreg = s.sreg ∧
      t.pc = s.pc ∧ t.sp = s.sp ∧ SameData s t ∧ SameRest s t

/-- R122. -/
def Obligations.MovCopiesRegister : Prop :=
  ∀ (a b : RegNum) (s : State),
    decode (0x1000#16 ||| at8 a ||| at5 b) = .ok (.mov a b) ∧
    ∃ t, exec (.mov a b) s = .next t ∧ t.reg a = s.reg b ∧ SameRegsBut a s t ∧
      t.sreg = s.sreg ∧ t.pc = s.pc ∧ t.sp = s.sp ∧ SameData s t ∧ SameRest s t

/-- R123. -/
def Obligations.LdLoadsIndirect : Prop :=
  ∀ (a b : RegNum) (s : State),
    decode (0x3000#16 ||| at8 a ||| at5 b) = .ok (.ld a b) ∧
    LoadOutcome (.ld a b) (s.reg b) s fun t =>
      t.reg a = s.cell (s.reg b) ∧ SameRegsBut a s t ∧ t.pc = s.pc ∧ t.sp = s.sp

/-- R124. -/
def Obligations.StStoresIndirect : Prop :=
  ∀ (a b : RegNum) (s : State),
    decode (0x3800#16 ||| at8 a ||| at5 b) = .ok (.st a b) ∧
    StoreOutcome (.st a b) (s.reg b) (s.reg a) s fun t => t.pc = s.pc ∧ t.sp = s.sp

/-- R125. -/
def Obligations.LdsLoadsDirect : Prop :=
  ∀ (a : RegNum) (k : Byte) (s : State),
    decode (0x4000#16 ||| at8 a ||| imm k) = .ok (.lds a k) ∧
    LoadOutcome (.lds a k) k s fun t =>
      t.reg a = s.cell k ∧ SameRegsBut a s t ∧ t.pc = s.pc ∧ t.sp = s.sp

/-- R126. -/
def Obligations.StsStoresDirect : Prop :=
  ∀ (a : RegNum) (k : Byte) (s : State),
    decode (0x4800#16 ||| at8 a ||| imm k) = .ok (.sts a k) ∧
    StoreOutcome (.sts a k) k (s.reg a) s fun t => t.pc = s.pc ∧ t.sp = s.sp

/-- R59, R53: what a store put in a cell is what a load of that cell gives, by any of the registers. -/
def Obligations.LoadAfterStoreReturnsValue : Prop :=
  ∀ (a c : RegNum) (k : Byte) (s t u : State), Memory.wf s.datamem →
    exec (.sts a k) s = .next t → exec (.lds c k) t = .next u → u.reg c = s.reg a

/-! ### Arithmetic, logic, rotates -/

/-- R143: both wordings of V. -/
def Obligations.AddSetsSumAndFlags : Prop :=
  ∀ (a b : RegNum) (s : State),
    decode (0x1800#16 ||| at8 a ||| at5 b) = .ok (.add a b) ∧
    ∃ t, exec (.add a b) s = .next t ∧
      (t.reg a).toNat = ((s.reg a).toNat + (s.reg b).toNat) % 256 ∧
      (t.sreg.c = true ↔ 256 ≤ (s.reg a).toNat + (s.reg b).toNat) ∧
      (t.sreg.v = true ↔ (s.reg a).getLsbD 7 = (s.reg b).getLsbD 7 ∧
        (t.reg a).getLsbD 7 ≠ (s.reg a).getLsbD 7) ∧
      (t.sreg.v = true ↔ (s.reg a).toInt + (s.reg b).toInt < -128 ∨
        127 < (s.reg a).toInt + (s.reg b).toInt) ∧
      t.sreg.n = (t.reg a).getLsbD 7 ∧ (t.sreg.z = true ↔ t.reg a = 0x00#8) ∧
      t.sreg.s = (t.sreg.n ^^ t.sreg.v) ∧
      SameRegsBut a s t ∧ t.pc = s.pc ∧ t.sp = s.sp ∧ SameData s t ∧ SameRest s t

/-- R144: the difference, both wordings of V, and the comparisons that C, Z and S are. -/
def Obligations.SubSetsDifferenceAndFlags : Prop :=
  ∀ (a b : RegNum) (s : State),
    decode (0x2000#16 ||| at8 a ||| at5 b) = .ok (.sub a b) ∧
    ∃ t, exec (.sub a b) s = .next t ∧
      ((t.reg a).toNat : Int) = ((s.reg a).toNat - (s.reg b).toNat : Int) % 256 ∧
      (t.sreg.c = true ↔ (s.reg a).toNat < (s.reg b).toNat) ∧
      (t.sreg.v = true ↔ (s.reg a).getLsbD 7 ≠ (s.reg b).getLsbD 7 ∧
        (t.reg a).getLsbD 7 ≠ (s.reg a).getLsbD 7) ∧
      (t.sreg.v = true ↔ (s.reg a).toInt - (s.reg b).toInt < -128 ∨
        127 < (s.reg a).toInt - (s.reg b).toInt) ∧
      t.sreg.n = (t.reg a).getLsbD 7 ∧ (t.sreg.z = true ↔ t.reg a = 0x00#8) ∧
      (t.sreg.z = true ↔ s.reg a = s.reg b) ∧
      t.sreg.s = (t.sreg.n ^^ t.sreg.v) ∧
      (t.sreg.s = true ↔ (s.reg a).toInt < (s.reg b).toInt) ∧
      SameRegsBut a s t ∧ t.pc = s.pc ∧ t.sp = s.sp ∧ SameData s t ∧ SameRest s t

/-- R145 to R148: AND, OR and EOR. -/
def Obligations.LogicInstructionsCombineBits : Prop :=
  ∀ (a b : RegNum) (s : State),
    decode (0x6800#16 ||| at8 a ||| at5 b) = .ok (.and a b) ∧
    decode (0x7000#16 ||| at8 a ||| at5 b) = .ok (.or a b) ∧
    decode (0x7800#16 ||| at8 a ||| at5 b) = .ok (.eor a b) ∧
    LogicOutcome (.and a b) (· && ·) a b s ∧
    LogicOutcome (.or a b) (· || ·) a b s ∧
    LogicOutcome (.eor a b) (· != ·) a b s

/-- R149, R150. -/
def Obligations.RorRotatesThroughCarry : Prop :=
  ∀ (a : RegNum) (s : State),
    decode (0x8000#16 ||| at8 a) = .ok (.ror a) ∧
    ∃ t, exec (.ror a) s = .next t ∧
      (t.reg a).toNat = 128 * s.sreg.c.toNat + (s.reg a).toNat / 2 ∧
      t.sreg.c = (s.reg a).getLsbD 0 ∧ t.sreg.n = (t.reg a).getLsbD 7 ∧ t.sreg.n = s.sreg.c ∧
      (t.sreg.z = true ↔ t.reg a = 0x00#8) ∧ t.sreg.v = (t.sreg.n ^^ t.sreg.c) ∧
      t.sreg.s = (t.sreg.n ^^ t.sreg.v) ∧
      SameRegsBut a s t ∧ t.pc = s.pc ∧ t.sp = s.sp ∧ SameData s t ∧ SameRest s t

/-- R149, R151. -/
def Obligations.RolRotatesThroughCarry : Prop :=
  ∀ (a : RegNum) (s : State),
    decode (0x8800#16 ||| at8 a) = .ok (.rol a) ∧
    ∃ t, exec (.rol a) s = .next t ∧
      (t.reg a).toNat = (2 * (s.reg a).toNat + s.sreg.c.toNat) % 256 ∧
      t.sreg.c = (s.reg a).getLsbD 7 ∧ t.sreg.n = (t.reg a).getLsbD 7 ∧
      t.sreg.n = (s.reg a).getLsbD 6 ∧
      (t.sreg.z = true ↔ t.reg a = 0x00#8) ∧ t.sreg.v = (t.sreg.n ^^ t.sreg.c) ∧
      t.sreg.s = (t.sreg.n ^^ t.sreg.v) ∧
      SameRegsBut a s t ∧ t.pc = s.pc ∧ t.sp = s.sp ∧ SameData s t ∧ SameRest s t

/-- R28, R29, R31, R142: Z, N and S after every one of the seven ALU instructions. -/
def Obligations.AluInstructionsSetZeroNegativeSign : Prop :=
  ∀ (i : Instr) (a : RegNum) (s t : State), i.aluDest = some a → exec i s = .next t →
    (t.sreg.z = true ↔ t.reg a = 0x00#8) ∧ t.sreg.n = (t.reg a).getLsbD 7 ∧
    t.sreg.s = (t.sreg.n ^^ t.sreg.v)

/-- `95_test_vectors.md` section 2.4: ROR then ROL, and ROL then ROR, give back the register and C. -/
def Obligations.OppositeRotatesRestore : Prop :=
  ∀ (a : RegNum) (s t u : State),
    (exec (.ror a) s = .next t ∧ exec (.rol a) t = .next u) ∨
    (exec (.rol a) s = .next t ∧ exec (.ror a) t = .next u) →
      u.reg a = s.reg a ∧ u.sreg.c = s.sreg.c

/-- R150 and `95_test_vectors.md` section 2.4: nine rotations in one direction go round the ring of
nine bits, C and the register. -/
def Obligations.NineRotatesRestore : Prop :=
  ∀ (i : Instr) (a : RegNum) (s : State), i = .ror a ∨ i = .rol a →
    ∃ t, execTimes i 9 s = .next t ∧ t.reg a = s.reg a ∧ t.sreg.c = s.sreg.c

/-- R140, R142, R152: the ALU table, operation by operation, its OP column row by row, the operation each
OP code selects, and no operation for OP codes 10 to 15; which operations leave the flags, or C, as they were. -/
def Obligations.AluTableRows : Prop :=
  (∀ (a b : Byte) (ca : Bool),
    (aluResult .add a b ca).toNat = (a.toNat + b.toNat) % 256 ∧
    aluResult .tra a b ca = a ∧
    ((aluResult .sub a b ca).toNat : Int) = (a.toNat - b.toNat : Int) % 256 ∧
    aluResult .trb a b ca = b ∧
    ((aluResult .neg a b ca).toNat : Int) = (0 - a.toNat : Int) % 256 ∧
    (∀ j < 8, (aluResult .and a b ca).getLsbD j = (a.getLsbD j && b.getLsbD j)) ∧
    (∀ j < 8, (aluResult .or a b ca).getLsbD j = (a.getLsbD j || b.getLsbD j)) ∧
    (∀ j < 8, (aluResult .eor a b ca).getLsbD j = (a.getLsbD j != b.getLsbD j)) ∧
    (aluResult .ror a b ca).toNat = 128 * ca.toNat + a.toNat / 2 ∧
    (aluResult .rol a b ca).toNat = (2 * a.toNat + ca.toNat) % 256) ∧
  (∀ (a b : Byte) (old : SReg), aluFlags .tra a b old = old ∧ aluFlags .trb a b old = old ∧
    ∀ op ∈ [AluOp.and, .or, .eor], (aluFlags op a b old).c = old.c) ∧
  (∀ row ∈ [(AluOp.add, 0b0000#4), (.tra, 0b0001#4), (.sub, 0b0010#4), (.trb, 0b0011#4),
      (.neg, 0b0100#4), (.and, 0b0101#4), (.or, 0b0110#4), (.eor, 0b0111#4), (.ror, 0b1000#4),
      (.rol, 0b1001#4)], row.1.code = row.2 ∧ AluOp.ofCode? row.2 = some row.1) ∧
  (∀ op : AluOp, AluOp.ofCode? op.code = some op) ∧
  (∀ c : BitVec 4, AluOp.ofCode? c = none ↔ 10 ≤ c.toNat)

/-- R141: each of the seven instructions runs the ALU operation of its name, with `x[a]`, `x[b]` and C
as inputs, the output to `x[a]` and the flag outputs to `sreg`. -/
def Obligations.InstructionsUseTheirAluRow : Prop :=
  ∀ (i : Instr) (op : AluOp) (a b : RegNum) (s t : State),
    (i, op) ∈ [(Instr.add a b, AluOp.add), (.sub a b, .sub), (.and a b, .and), (.or a b, .or),
      (.eor a b, .eor), (.ror a, .ror), (.rol a, .rol)] →
    exec i s = .next t →
      t.reg a = aluResult op (s.reg a) (s.reg b) s.sreg.c ∧
      t.sreg = aluFlags op (s.reg a) (s.reg b) s.sreg

/-! ### Control -/

/-- R180: STOP halts and changes nothing else (nothing is said of `pc`), and no step follows. -/
def Obligations.StopHaltsTheMachine : Prop :=
  ∀ s : State,
    decode 0x2800#16 = .ok .stop ∧
    ∃ t, exec .stop s = .next t ∧ t.halted = true ∧ SameRegs s t ∧ t.sreg = s.sreg ∧
      t.sp = s.sp ∧ SameData s t ∧ t.codemem = s.codemem ∧ t.cfg = s.cfg ∧ ∀ u, step t ≠ .next u

/-- R182. -/
def Obligations.JmpGoesToTheAbsoluteAddress : Prop :=
  ∀ (k : Byte) (s : State),
    decode (0x5000#16 ||| imm k) = .ok (.jmp k) ∧
    ∃ t, exec (.jmp k) s = .next t ∧ t.pc = k ∧ SameRegs s t ∧ t.sreg = s.sreg ∧
      t.sp = s.sp ∧ SameData s t ∧ SameRest s t

/-- R183, R184; the clause on `exec` of an ill-formed term is the model's choice, log 12 (DESIGN CHOICE),
and no rule of the spec. -/
def Obligations.BrbsBranchesWhenBitSet : Prop :=
  ∀ (sb : StatusNum) (k : Byte) (s : State),
    BranchOutcome (.brbs sb k) (0x5800#16 ||| at8 sb ||| imm k) sb true k s

/-- R185, R184; the clause on `exec` of an ill-formed term is the model's choice, log 12 (DESIGN CHOICE),
and no rule of the spec. -/
def Obligations.BrbcBranchesWhenBitClear : Prop :=
  ∀ (sb : StatusNum) (k : Byte) (s : State),
    BranchOutcome (.brbc sb k) (0x6000#16 ||| at8 sb ||| imm k) sb false k s

/-- R186, R153: the six comparison branches after `SUB Ra,Rb`, on the register values from before it. -/
def Obligations.BranchesAfterSubCompare : Prop :=
  ∀ (a b : RegNum) (k : Byte) (s t : State), exec (.sub a b) s = .next t →
    exec (Pseudo.brlo k).expand t =
      .next (if (s.reg a).toNat < (s.reg b).toNat then t.setPc k else t) ∧
    exec (Pseudo.brsh k).expand t =
      .next (if (s.reg b).toNat ≤ (s.reg a).toNat then t.setPc k else t) ∧
    exec (Pseudo.breq k).expand t = .next (if s.reg a = s.reg b then t.setPc k else t) ∧
    exec (Pseudo.brne k).expand t = .next (if s.reg a ≠ s.reg b then t.setPc k else t) ∧
    exec (Pseudo.brlt k).expand t =
      .next (if (s.reg a).toInt < (s.reg b).toInt then t.setPc k else t) ∧
    exec (Pseudo.brge k).expand t =
      .next (if (s.reg b).toInt ≤ (s.reg a).toInt then t.setPc k else t)

/-- R186: words and conditions of the 14 branch pseudo-instructions. -/
def Obligations.BranchPseudoInstructionTable : Prop :=
  ∀ (k : Byte) (s : State),
    ∀ row ∈ [(Pseudo.brcs k, 0x5800#16, s.sreg.c), (.brlo k, 0x5800#16, s.sreg.c),
        (.brzs k, 0x5900#16, s.sreg.z), (.breq k, 0x5900#16, s.sreg.z),
        (.brmi k, 0x5A00#16, s.sreg.n), (.brvs k, 0x5B00#16, s.sreg.v),
        (.brlt k, 0x5C00#16, s.sreg.s), (.brcc k, 0x6000#16, !s.sreg.c),
        (.brsh k, 0x6000#16, !s.sreg.c), (.brzc k, 0x6100#16, !s.sreg.z),
        (.brne k, 0x6100#16, !s.sreg.z), (.brpl k, 0x6200#16, !s.sreg.n),
        (.brvc k, 0x6300#16, !s.sreg.v), (.brge k, 0x6400#16, !s.sreg.s)],
      row.1.word = row.2.1 ||| imm k ∧ decode row.1.word = .ok row.1.expand ∧
      exec row.1.expand s = .next (if row.2.2 then s.setPc k else s)

/-! ### Status register -/

/-- R200, R202; the clause on `exec` of an ill-formed term is the model's choice, log 12 (DESIGN CHOICE),
and no rule of the spec. -/
def Obligations.BclrClearsOneBit : Prop :=
  ∀ (sb : StatusNum) (s : State), StatusOutcome (.bclr sb) (0x9000#16 ||| at8 sb) sb false s

/-- R201, R202; the clause on `exec` of an ill-formed term is the model's choice, log 12 (DESIGN CHOICE),
and no rule of the spec. -/
def Obligations.BsetSetsOneBit : Prop :=
  ∀ (sb : StatusNum) (s : State), StatusOutcome (.bset sb) (0x9800#16 ||| at8 sb) sb true s

/-- R203: words and effects of the 10 status pseudo-instructions. -/
def Obligations.StatusPseudoInstructionTable : Prop :=
  ∀ s : State,
    ∀ row ∈ [(Pseudo.clc, 0x9000#16, { s.sreg with c := false }),
        (.clz, 0x9100#16, { s.sreg with z := false }), (.cln, 0x9200#16, { s.sreg with n := false }),
        (.clv, 0x9300#16, { s.sreg with v := false }), (.cls, 0x9400#16, { s.sreg with s := false }),
        (.sec, 0x9800#16, { s.sreg with c := true }), (.sez, 0x9900#16, { s.sreg with z := true }),
        (.sen, 0x9A00#16, { s.sreg with n := true }), (.sev, 0x9B00#16, { s.sreg with v := true }),
        (.ses, 0x9C00#16, { s.sreg with s := true })],
      row.1.word = row.2.1 ∧ decode row.1.word = .ok row.1.expand ∧
      exec row.1.expand s = .next (s.setSreg row.2.2)

/-! ### Stack -/

/-- R210. -/
def Obligations.PushStoresAndDecrements : Prop :=
  ∀ (a : RegNum) (s : State),
    decode (0xA000#16 ||| at8 a) = .ok (.push a) ∧
    StoreOutcome (.push a) s.sp (s.reg a) s fun t =>
      t.pc = s.pc ∧ t.sp.toNat = (s.sp.toNat + 255) % 256

/-- R211. -/
def Obligations.PopLoadsAndIncrements : Prop :=
  ∀ (a : RegNum) (s : State),
    decode (0xA800#16 ||| at8 a) = .ok (.pop a) ∧
    LoadOutcome (.pop a) (s.sp + 1) s fun t =>
      t.reg a = s.cell (s.sp + 1) ∧ SameRegsBut a s t ∧ t.pc = s.pc ∧
      t.sp.toNat = (s.sp.toNat + 1) % 256

/-- R212: inside the rule `pc` is the address after the CALL, and that is what is stored. -/
def Obligations.CallStoresReturnAddress : Prop :=
  ∀ (k : Byte) (s : State),
    decode (0xB000#16 ||| imm k) = .ok (.call k) ∧
    StoreOutcome (.call k) s.sp s.pc s fun t =>
      t.pc = k ∧ t.sp.toNat = (s.sp.toNat + 255) % 256

/-- R213. -/
def Obligations.RetLoadsProgramCounter : Prop :=
  ∀ s : State,
    decode 0xB800#16 = .ok .ret ∧
    LoadOutcome .ret (s.sp + 1) s fun t =>
      t.pc = s.cell (s.sp + 1) ∧ SameRegs s t ∧ t.sp.toNat = (s.sp.toNat + 1) % 256

/-- R214: a PUSH followed by a POP of the same register restores the register and sp, even where sp
wraps, and the cell keeps the pushed value. -/
def Obligations.PushThenPopRestores : Prop :=
  ∀ (a : RegNum) (s t u : State), Memory.wf s.datamem →
    exec (.push a) s = .next t → exec (.pop a) t = .next u →
      SameRegs s u ∧ u.sp = s.sp ∧ u.sreg = s.sreg ∧ u.cell s.sp = s.reg a

/-- R212, R213 run by steps: a CALL fetched at `s.pc` and a RET fetched at its target come back to the
instruction after the CALL with sp restored. -/
def Obligations.CallThenRetReturns : Prop :=
  ∀ (k : Byte) (s t u : State), Memory.wf s.datamem →
    Fetches s (.call k) → step s = .next t → Fetches t .ret → step t = .next u →
      u.pc = s.pc + 1 ∧ u.sp = s.sp ∧ SameRegs s u ∧ u.sreg = s.sreg

/-- R66: a RET after the return-address cell was overwritten jumps to the overwritten value. -/
def Obligations.RetFollowsOverwrittenCell : Prop :=
  ∀ (k : Byte) (a b : RegNum) (s t u v : State), Memory.wf s.datamem → s.reg b = s.sp →
    exec (.call k) s = .next t → exec (.st a b) t = .next u → exec .ret u = .next v →
      v.pc = s.reg a

/-- R25, R215: with no platform region n pushes always complete and walk sp down by n, modulo 256. -/
def Obligations.PushesWalkStackPointer : Prop :=
  ∀ (a : RegNum) (n : Nat) (s : State), s.cfg.platformRegions = [] →
    ∃ t, execTimes (.push a) n s = .next t ∧ t.sp = s.sp - BitVec.ofNat 8 n ∧ SameRegs s t

/-! ### The machine as a whole -/

/-- R9: the instruction cycle. -/
def Obligations.StepRunsTheDecodedInstruction : Prop :=
  ∀ s : State,
    (s.halted = true → ∀ u, step s ≠ .next u) ∧
    (s.halted = false →
      (s.codeWord s.pc = none → step s = .fault (.fetchOfUnwritten s.pc)) ∧
      ∀ w, s.codeWord s.pc = some w →
        (∀ e, decode w = .error e → step s = .fault (faultAt s.pc w e)) ∧
        ∀ i, decode w = .ok i → step s = exec i { s with pc := s.pc + 1 })

/-- R232, R233: a step faults exactly in these cases, in this order, with these records. That R232's
`ReadOfUnwritten` is not among them is the model's choice between R39's two options, log 7 (DESIGN CHOICE). -/
def Obligations.StepFaultsExactlyWhen : Prop :=
  ∀ (s : State) (f : Fault), step s = .fault f ↔ s.halted = false ∧
    ((s.codeWord s.pc = none ∧ f = .fetchOfUnwritten s.pc) ∨
     (∃ w, s.codeWord s.pc = some w ∧ decode w = .error .illegalInstruction ∧
       f = .illegalInstruction s.pc w) ∨
     (∃ w, s.codeWord s.pc = some w ∧ decode w = .error .reservedEncoding ∧
       f = .reservedEncoding s.pc w) ∨
     (∃ w n, s.codeWord s.pc = some w ∧ decode w = .error (.reservedStatusBit n) ∧
       f = .reservedStatusBit s.pc n) ∨
     (∃ i x, Fetches s i ∧ i.dataAddress s = some x ∧ x ∈ s.cfg.platformRegions ∧
       f = .unmodelledRegion x))

/-- Log 10 (the model's choice of outcome for "no step", R9, R35): a step is refused exactly when the
machine is halted, so no instruction is refused. -/
def Obligations.StepRefusedExactlyWhenHalted : Prop :=
  ∀ (s : State) (r : Refusal), step s = .refused r ↔ s.halted = true ∧ r = .halted

/-- R231: an instruction that touches no platform address completes, whatever the operands. That reading
what nothing has written completes too is the model's choice between R39's two options, log 7. -/
def Obligations.InstructionsCompleteOffPlatform : Prop :=
  ∀ (i : Instr) (s : State), i.wellFormed = true →
    (∀ x, i.dataAddress s = some x → x ∉ s.cfg.platformRegions) → ∃ t, exec i s = .next t

/-- R24: the program counter after every step but a STOP. -/
def Obligations.ProgramCounterAfterEachStep : Prop :=
  ∀ (i : Instr) (s t : State), Fetches s i → i ≠ .stop → step s = .next t →
    t.pc.toNat = pcAfter i s

/-- R25: only PUSH, POP, CALL and RET write sp, by one, modulo 256. -/
def Obligations.StackPointerAfterEachStep : Prop :=
  ∀ (i : Instr) (s t : State), Fetches s i → step s = .next t →
    t.sp.toNat = spAfter i s.sp.toNat

/-- R22: no register but the destination is written. -/
def Obligations.OnlyDestinationRegisterWritten : Prop :=
  ∀ (i : Instr) (s t : State) (r : RegNum), exec i s = .next t → i.dest ≠ some r →
    t.reg r = s.reg r

/-- R32, writers: a flag that the table does not mark keeps its value. -/
def Obligations.UnmarkedFlagsKeepTheirValue : Prop :=
  ∀ (i : Instr) (s t : State) (f : Flag), exec i s = .next t → i.writesFlag f = false →
    t.sreg.get f = s.sreg.get f

/-- R32, readers: changing a flag that an instruction does not read changes nothing of what it does,
but for that flag's own value where the instruction does not write it. -/
def Obligations.UnreadFlagsDoNotInfluence : Prop :=
  ∀ (i : Instr) (s t : State) (f : Flag) (b : Bool), i.readsFlag f = false → exec i s = .next t →
    exec i (s.setSreg (s.sreg.set f b)) =
      .next (if i.writesFlag f then t else t.setSreg (t.sreg.set f b))

/-- R33, R53, R55: at most the one cell of the table is written, and it receives the table's value. -/
def Obligations.OnlyStoredCellWritten : Prop :=
  ∀ (i : Instr) (s t : State) (x : Byte), Memory.wf s.datamem → exec i s = .next t →
    (i.storeAddress s ≠ some x → t.cell x = s.cell x) ∧
    (i.storeAddress s = some x → some (t.cell x) = i.storeValue s)

/-- R35: a step ends halted exactly when it ran STOP. -/
def Obligations.OnlyStopHalts : Prop :=
  ∀ (s t : State), step s = .next t → (t.halted = true ↔ Fetches s .stop)

/-- Every step keeps both memories canonical, from every state in which they are. -/
def Obligations.StepKeepsMemoriesCanonical : Prop :=
  ∀ s t : State, s.Inv → step s = .next t → t.Inv

/-- The reset state's memories are canonical, and so are those of a launch with canonical inputs. -/
def Obligations.LaunchMemoriesCanonical : Prop :=
  State.reset.Inv ∧ ∀ cfg regs sreg data code, Memory.wf data → Code.wf code →
    (State.launch cfg regs sreg data code).Inv

/-- R64, R34: a fetch from a code address finds the same for the whole run. -/
def Obligations.CodeMemoryConstantAlongRuns : Prop :=
  ∀ (n : Nat) (s t : State), core.run n s = .next t → ∀ p, t.codeWord p = s.codeWord p

/-- R263, R180: a run that reaches a halted state ended by executing STOP. -/
def Obligations.RunsHaltOnlyByStop : Prop :=
  ∀ (n : Nat) (s t : State), s.halted = false → core.run n s = .next t → t.halted = true →
    ∃ (m : Nat) (u : State), n = m + 1 ∧ core.run m s = .next u ∧ u.halted = false ∧ Fetches u .stop ∧
      step u = .next t

/-- R180: a run has at most one final state. -/
def Obligations.RunHasOneFinalState : Prop :=
  ∀ s t u : State, RunEnds s t → RunEnds s u → t = u

/-- R231 along runs: with no platform region, a program whose every code word decodes is safe, under
R39's second option (the model's choice, log 7). -/
def Obligations.DecodableProgramsAreSafe : Prop :=
  ∀ s : State, s.cfg.platformRegions = [] →
    (∀ p, ∃ w i, s.codeWord p = some w ∧ decode w = .ok i) → SafeRun s

/-- R260, R261, R262: after the reset event `pc`, `sp` and `halted` are as reset sets them, and the first
step runs the instruction at `PC_RESET`. The registers, flags and data cells, which reset leaves without a
defined value, are exactly the ones the launch is given, none of them picked: free inputs, the model's
choice between R39's two options, log 7 (DESIGN CHOICE). The program image is the host's. -/
def Obligations.ResetEventStartsAtResetVector : Prop :=
  ∀ cfg regs sreg data code, ∀ s, s = State.launch cfg regs sreg data code →
    s.pc = cfg.pcReset ∧ s.sp = cfg.spReset ∧ s.halted = false ∧ s.cfg = cfg ∧
    s.regs = regs ∧ s.sreg = sreg ∧ s.datamem = data ∧ s.codemem = code ∧
    (cfg = Config.default → s.pc = 0x00#8 ∧ s.sp = 0xFF#8) ∧
    (∀ w i, s.codeWord cfg.pcReset = some w → decode w = .ok i →
      step s = exec i { s with pc := cfg.pcReset + 1 })
end

