-- ==== Sys2Proof/Laws/Decode.lean ====
section
/-! SUPPORT. The bits and the fields of a word built from fields (R82, R83), and the must-be-zero bits
of each pattern. -/

namespace Sys2Proof

section

variable (op : BitVec 5) (a : Fin 8) (b : RegNum) (k : Byte) (i : Nat)

/-- The bits of the pattern RK: `k` in 7:0, `a` in 10:8, `op` in 15:11. -/
theorem getLsbD_wordRK : (wordRK op a k).getLsbD i =
    if i < 8 then k.getLsbD i else if i < 11 then a.val.testBit (i - 8) else op.getLsbD (i - 11) := by
  have h := BitVec.getLsbD_append (x := op ++ BitVec.ofFin (w := 3) a) (y := k) (i := i)
  have h' := BitVec.getLsbD_append (x := op) (y := BitVec.ofFin (w := 3) a) (i := i - 8)
  refine h.trans ?_
  rw [h']
  have e : i - 8 - 3 = i - 11 := by omega
  have l : i - 8 < 3 ↔ i < 11 := by omega
  simp only [BitVec.getLsbD_ofFin, e, l]

@[simp] theorem fieldOp_wordRK : fieldOp (wordRK op a k) = op := by
  apply BitVec.eq_of_getLsbD_eq
  intro i hi
  have h1 : ¬ (11 + i < 8) := by omega
  simp [fieldOp, getLsbD_wordRK, hi, h1]

theorem extract_a_wordRK : (wordRK op a k).extractLsb' 8 3 = BitVec.ofFin (w := 3) a := by
  apply BitVec.eq_of_getLsbD_eq
  intro i hi
  have h2 : 8 + i < 11 := by omega
  simp [getLsbD_wordRK, hi, h2]

@[simp] theorem fieldA_wordRK : fieldA (wordRK op a k) = a := by
  rw [fieldA, extract_a_wordRK]

@[simp] theorem fieldS_wordRK : fieldS (wordRK op a k) = a := by
  rw [fieldS, extract_a_wordRK]

@[simp] theorem fieldK_wordRK : fieldK (wordRK op a k) = k := by
  apply BitVec.eq_of_getLsbD_eq
  intro i hi
  simp [fieldK, getLsbD_wordRK, hi]

/-- Field `b` is the top three bits of field `k` (R82). -/
theorem fieldB_eq (w : CodeWord) : fieldB w = ((fieldK w).extractLsb' 5 3).toFin := by
  have : w.extractLsb' 5 3 = (fieldK w).extractLsb' 5 3 := by
    apply BitVec.eq_of_getLsbD_eq
    intro i hi
    simp [fieldK, hi]
  rw [fieldB, this]

@[simp] theorem fieldOp_wordRR : fieldOp (wordRR op a b) = op := fieldOp_wordRK op a _
@[simp] theorem fieldA_wordRR : fieldA (wordRR op a b) = a := fieldA_wordRK op a _

@[simp] theorem fieldB_wordRR : fieldB (wordRR op a b) = b := by
  rw [fieldB_eq, wordRR, fieldK_wordRK]
  revert b; decide

@[simp] theorem fieldOp_wordR : fieldOp (wordR op a) = op := fieldOp_wordRK op a _
@[simp] theorem fieldA_wordR : fieldA (wordR op a) = a := fieldA_wordRK op a _
@[simp] theorem fieldS_wordR : fieldS (wordR op a) = a := fieldS_wordRK op a _
@[simp] theorem fieldOp_wordK : fieldOp (wordK op k) = op := fieldOp_wordRK op 0 k
@[simp] theorem fieldK_wordK : fieldK (wordK op k) = k := fieldK_wordRK op 0 k
@[simp] theorem fieldOp_wordN : fieldOp (wordN op) = op := fieldOp_wordRK op 0 _

end

/-- A word is the pattern RK of its fields: the sixteen bits are op, `a` and `k`, nothing else. -/
theorem wordRK_fields (w : CodeWord) : wordRK (fieldOp w) (fieldA w) (fieldK w) = w := by
  apply BitVec.eq_of_getLsbD_eq
  intro i hi
  rw [getLsbD_wordRK]
  split
  · next h => simp [fieldK, h]
  · split
    · next h1 h2 =>
      have e : 8 + (i - 8) = i := by omega
      have h3 : i - 8 < 3 := by omega
      have : (fieldA w).val.testBit (i - 8) = (w.extractLsb' 8 3).getLsbD (i - 8) := rfl
      simp [this, h3, e]
    · next h1 h2 =>
      have e : 11 + (i - 11) = i := by omega
      have h3 : i - 11 < 5 := by omega
      simp [fieldOp, h3, e]

/-- The must-be-zero check compares the masked word with its op code in place. -/
theorem zeroBitsOk_iff (i : Instr) (w : CodeWord) :
    zeroBitsOk i w = true ↔ w &&& i.format.mask = (fieldOp w).zeroExtend 16 <<< 11 := by
  simp [zeroBitsOk]

section

variable (op : BitVec 5) (a : Fin 8) (b : RegNum) (k : Byte)

/-- Masks of formats that keep all of `k` see nothing but `op` and `a`. -/
theorem wordRK_and_high (m : CodeWord) (hm : ∀ i < 8, m.getLsbD i = false) :
    wordRK op a k &&& m = wordRK op a 0#8 &&& m := by
  apply BitVec.eq_of_getLsbD_eq
  intro i _
  by_cases h : i < 8
  · simp [hm i h]
  · simp [getLsbD_wordRK, h]

theorem wordRK_mask_RK : wordRK op a k &&& Format.RK.mask = op.zeroExtend 16 <<< 11 := by
  rw [wordRK_and_high op a k _ (by decide)]
  revert op a; decide

theorem wordRK_mask_SK : wordRK op a k &&& Format.SK.mask = op.zeroExtend 16 <<< 11 :=
  wordRK_mask_RK op a k

theorem wordK_mask : wordK op k &&& Format.K.mask = op.zeroExtend 16 <<< 11 := by
  rw [wordK, wordRK_and_high op 0 k _ (by decide)]
  revert op; decide

theorem wordR_mask_R : wordR op a &&& Format.R.mask = op.zeroExtend 16 <<< 11 := by
  revert op a; decide

theorem wordR_mask_S : wordR op a &&& Format.S.mask = op.zeroExtend 16 <<< 11 :=
  wordR_mask_R op a

theorem wordN_mask : wordN op &&& Format.N.mask = op.zeroExtend 16 <<< 11 := by
  revert op; decide

theorem wordRR_mask : wordRR op a b &&& Format.RR.mask = op.zeroExtend 16 <<< 11 := by
  apply BitVec.eq_of_getLsbD_eq
  intro i hi
  have hk : ∀ j < 8, (BitVec.ofFin (w := 3) b ++ 0#5 : Byte).getLsbD j =
      (decide (5 ≤ j) && b.val.testBit (j - 5)) := by
    revert b; decide
  rw [BitVec.getLsbD_and, wordRR, getLsbD_wordRK]
  by_cases h : i < 8
  · rw [if_pos h, hk i h]; interval_cases i <;> simp [Format.mask]
  · rw [if_neg h]; interval_cases i <;> simp_all [Format.mask]

end

/-- The op code in place is the word under the mask of its five bits. -/
theorem fieldOp_in_place (w : CodeWord) : w &&& 0xF800#16 = (fieldOp w).zeroExtend 16 <<< 11 := by
  conv_lhs => rw [← wordRK_fields w]
  exact wordRK_mask_RK _ _ _

/-- The must-be-zero check, said of the must-be-zero bits `z` of the format alone. -/
theorem zeroBitsOk_iff_low {i : Instr} {z : CodeWord} (w : CodeWord)
    (hm : i.format.mask = 0xF800#16 ||| z) (hz : z &&& 0xF800#16 = 0#16) :
    zeroBitsOk i w = true ↔ w &&& z = 0#16 := by
  rw [zeroBitsOk_iff, hm, ← fieldOp_in_place, BitVec.and_or_distrib_left]
  constructor
  · intro h
    have e : w &&& z &&& 0xF800#16 = 0#16 := by rw [BitVec.and_assoc, hz, BitVec.and_zero]
    calc w &&& z = (w &&& z) &&& (w &&& 0xF800#16 ||| w &&& z) := by
          apply BitVec.eq_of_getLsbD_eq
          intro j _
          simp only [BitVec.getLsbD_and, BitVec.getLsbD_or]
          cases w.getLsbD j <;> cases z.getLsbD j <;> simp
      _ = (w &&& z) &&& (w &&& 0xF800#16) := by rw [h]
      _ = w &&& (w &&& z &&& 0xF800#16) := by ac_rfl
      _ = 0#16 := by rw [e, BitVec.and_zero]
  · intro h; rw [h, BitVec.or_zero]

/-- Exactly when a word is accepted, and as what. -/
theorem decode_ok_iff {w : CodeWord} {i : Instr} :
    decode w = .ok i ↔ selectInstr w = some i ∧ zeroBitsOk i w = true ∧ i.wellFormed = true := by
  unfold decode Instr.wellFormed
  cases hs : selectInstr w with
  | none => simp
  | some j =>
    by_cases hz : zeroBitsOk j w = true
    · cases ho : j.statusOperand with
      | none =>
        simp only [hz, if_true, ho, Except.ok.injEq, Option.some.injEq]
        constructor
        · rintro rfl; exact ⟨rfl, hz, by rw [ho]⟩
        · exact fun h => h.1
      | some n =>
        cases hn : StatusNum.named n with
        | true =>
          simp only [hz, if_true, ho, hn, Except.ok.injEq, Option.some.injEq]
          constructor
          · rintro rfl; exact ⟨rfl, hz, by rw [ho]; exact hn⟩
          · exact fun h => h.1
        | false =>
          simp only [hz, if_true, ho, hn, Bool.false_eq_true, if_false, reduceCtorEq,
            Option.some.injEq, false_iff]
          rintro ⟨rfl, -, h⟩
          rw [ho] at h
          exact absurd (hn.symm.trans h) (by decide)
    · simp only [hz, Bool.false_eq_true, if_false, reduceCtorEq, Option.some.injEq, false_iff]
      rintro ⟨rfl, h, -⟩
      exact hz h

end Sys2Proof
end

