-- ==== Sys2Proof/Laws/State.lean ====
section
/-! SUPPORT. The fields of a state after each of the updates of `Machine/Ops.lean`, one lemma per field
per update, and the reads of registers, cells and words after each update. -/

namespace Sys2Proof.Machine

variable (s : State)

/-! ### `State.setReg` -/

@[simp] theorem State.setReg_regs (a : RegNum) (v : Byte) : (s.setReg a v).regs = s.regs.set a v := rfl
@[simp] theorem State.setReg_pc (a : RegNum) (v : Byte) : (s.setReg a v).pc = s.pc := rfl
@[simp] theorem State.setReg_sp (a : RegNum) (v : Byte) : (s.setReg a v).sp = s.sp := rfl
@[simp] theorem State.setReg_sreg (a : RegNum) (v : Byte) : (s.setReg a v).sreg = s.sreg := rfl
@[simp] theorem State.setReg_datamem (a : RegNum) (v : Byte) : (s.setReg a v).datamem = s.datamem := rfl
@[simp] theorem State.setReg_codemem (a : RegNum) (v : Byte) : (s.setReg a v).codemem = s.codemem := rfl
@[simp] theorem State.setReg_halted (a : RegNum) (v : Byte) : (s.setReg a v).halted = s.halted := rfl
@[simp] theorem State.setReg_cfg (a : RegNum) (v : Byte) : (s.setReg a v).cfg = s.cfg := rfl
@[simp] theorem State.cell_setReg (a : RegNum) (v : Byte) (x : Byte) : (s.setReg a v).cell x = s.cell x := rfl
@[simp] theorem State.inPlatform_setReg (a : RegNum) (v : Byte) (x : Byte) : (s.setReg a v).inPlatform x = s.inPlatform x := rfl
@[simp] theorem State.codeWord_setReg (a : RegNum) (v : Byte) (x : Byte) : (s.setReg a v).codeWord x = s.codeWord x := rfl

/-! ### `State.setPc` -/

@[simp] theorem State.setPc_regs (e : Byte) : (s.setPc e).regs = s.regs := rfl
@[simp] theorem State.setPc_pc (e : Byte) : (s.setPc e).pc = e := rfl
@[simp] theorem State.setPc_sp (e : Byte) : (s.setPc e).sp = s.sp := rfl
@[simp] theorem State.setPc_sreg (e : Byte) : (s.setPc e).sreg = s.sreg := rfl
@[simp] theorem State.setPc_datamem (e : Byte) : (s.setPc e).datamem = s.datamem := rfl
@[simp] theorem State.setPc_codemem (e : Byte) : (s.setPc e).codemem = s.codemem := rfl
@[simp] theorem State.setPc_halted (e : Byte) : (s.setPc e).halted = s.halted := rfl
@[simp] theorem State.setPc_cfg (e : Byte) : (s.setPc e).cfg = s.cfg := rfl
@[simp] theorem State.reg_setPc (e : Byte) (r : RegNum) : (s.setPc e).reg r = s.reg r := rfl
@[simp] theorem State.cell_setPc (e : Byte) (x : Byte) : (s.setPc e).cell x = s.cell x := rfl
@[simp] theorem State.inPlatform_setPc (e : Byte) (x : Byte) : (s.setPc e).inPlatform x = s.inPlatform x := rfl
@[simp] theorem State.codeWord_setPc (e : Byte) (x : Byte) : (s.setPc e).codeWord x = s.codeWord x := rfl

/-! ### `State.setSp` -/

@[simp] theorem State.setSp_regs (e : Byte) : (s.setSp e).regs = s.regs := rfl
@[simp] theorem State.setSp_pc (e : Byte) : (s.setSp e).pc = s.pc := rfl
@[simp] theorem State.setSp_sp (e : Byte) : (s.setSp e).sp = e := rfl
@[simp] theorem State.setSp_sreg (e : Byte) : (s.setSp e).sreg = s.sreg := rfl
@[simp] theorem State.setSp_datamem (e : Byte) : (s.setSp e).datamem = s.datamem := rfl
@[simp] theorem State.setSp_codemem (e : Byte) : (s.setSp e).codemem = s.codemem := rfl
@[simp] theorem State.setSp_halted (e : Byte) : (s.setSp e).halted = s.halted := rfl
@[simp] theorem State.setSp_cfg (e : Byte) : (s.setSp e).cfg = s.cfg := rfl
@[simp] theorem State.reg_setSp (e : Byte) (r : RegNum) : (s.setSp e).reg r = s.reg r := rfl
@[simp] theorem State.cell_setSp (e : Byte) (x : Byte) : (s.setSp e).cell x = s.cell x := rfl
@[simp] theorem State.inPlatform_setSp (e : Byte) (x : Byte) : (s.setSp e).inPlatform x = s.inPlatform x := rfl
@[simp] theorem State.codeWord_setSp (e : Byte) (x : Byte) : (s.setSp e).codeWord x = s.codeWord x := rfl

/-! ### `State.setSreg` -/

@[simp] theorem State.setSreg_regs (f : SReg) : (s.setSreg f).regs = s.regs := rfl
@[simp] theorem State.setSreg_pc (f : SReg) : (s.setSreg f).pc = s.pc := rfl
@[simp] theorem State.setSreg_sp (f : SReg) : (s.setSreg f).sp = s.sp := rfl
@[simp] theorem State.setSreg_sreg (f : SReg) : (s.setSreg f).sreg = f := rfl
@[simp] theorem State.setSreg_datamem (f : SReg) : (s.setSreg f).datamem = s.datamem := rfl
@[simp] theorem State.setSreg_codemem (f : SReg) : (s.setSreg f).codemem = s.codemem := rfl
@[simp] theorem State.setSreg_halted (f : SReg) : (s.setSreg f).halted = s.halted := rfl
@[simp] theorem State.setSreg_cfg (f : SReg) : (s.setSreg f).cfg = s.cfg := rfl
@[simp] theorem State.reg_setSreg (f : SReg) (r : RegNum) : (s.setSreg f).reg r = s.reg r := rfl
@[simp] theorem State.cell_setSreg (f : SReg) (x : Byte) : (s.setSreg f).cell x = s.cell x := rfl
@[simp] theorem State.inPlatform_setSreg (f : SReg) (x : Byte) : (s.setSreg f).inPlatform x = s.inPlatform x := rfl
@[simp] theorem State.codeWord_setSreg (f : SReg) (x : Byte) : (s.setSreg f).codeWord x = s.codeWord x := rfl

/-! ### `State.halt` -/

@[simp] theorem State.halt_regs : (s.halt).regs = s.regs := rfl
@[simp] theorem State.halt_pc : (s.halt).pc = s.pc := rfl
@[simp] theorem State.halt_sp : (s.halt).sp = s.sp := rfl
@[simp] theorem State.halt_sreg : (s.halt).sreg = s.sreg := rfl
@[simp] theorem State.halt_datamem : (s.halt).datamem = s.datamem := rfl
@[simp] theorem State.halt_codemem : (s.halt).codemem = s.codemem := rfl
@[simp] theorem State.halt_halted : (s.halt).halted = true := rfl
@[simp] theorem State.halt_cfg : (s.halt).cfg = s.cfg := rfl
@[simp] theorem State.reg_halt (r : RegNum) : (s.halt).reg r = s.reg r := rfl
@[simp] theorem State.cell_halt (x : Byte) : (s.halt).cell x = s.cell x := rfl
@[simp] theorem State.inPlatform_halt (x : Byte) : (s.halt).inPlatform x = s.inPlatform x := rfl
@[simp] theorem State.codeWord_halt (x : Byte) : (s.halt).codeWord x = s.codeWord x := rfl

/-! ### `State.setCell` -/

@[simp] theorem State.setCell_regs (a v : Byte) : (s.setCell a v).regs = s.regs := rfl
@[simp] theorem State.setCell_pc (a v : Byte) : (s.setCell a v).pc = s.pc := rfl
@[simp] theorem State.setCell_sp (a v : Byte) : (s.setCell a v).sp = s.sp := rfl
@[simp] theorem State.setCell_sreg (a v : Byte) : (s.setCell a v).sreg = s.sreg := rfl
@[simp] theorem State.setCell_datamem (a v : Byte) : (s.setCell a v).datamem = Memory.write s.datamem a.toNat v := rfl
@[simp] theorem State.setCell_codemem (a v : Byte) : (s.setCell a v).codemem = s.codemem := rfl
@[simp] theorem State.setCell_halted (a v : Byte) : (s.setCell a v).halted = s.halted := rfl
@[simp] theorem State.setCell_cfg (a v : Byte) : (s.setCell a v).cfg = s.cfg := rfl
@[simp] theorem State.reg_setCell (a v : Byte) (r : RegNum) : (s.setCell a v).reg r = s.reg r := rfl
@[simp] theorem State.inPlatform_setCell (a v : Byte) (x : Byte) : (s.setCell a v).inPlatform x = s.inPlatform x := rfl
@[simp] theorem State.codeWord_setCell (a v : Byte) (x : Byte) : (s.setCell a v).codeWord x = s.codeWord x := rfl

/-! ### `State.placeWord` -/

@[simp] theorem State.placeWord_regs (p : Byte) (w : CodeWord) : (s.placeWord p w).regs = s.regs := rfl
@[simp] theorem State.placeWord_pc (p : Byte) (w : CodeWord) : (s.placeWord p w).pc = s.pc := rfl
@[simp] theorem State.placeWord_sp (p : Byte) (w : CodeWord) : (s.placeWord p w).sp = s.sp := rfl
@[simp] theorem State.placeWord_sreg (p : Byte) (w : CodeWord) : (s.placeWord p w).sreg = s.sreg := rfl
@[simp] theorem State.placeWord_datamem (p : Byte) (w : CodeWord) : (s.placeWord p w).datamem = s.datamem := rfl
@[simp] theorem State.placeWord_codemem (p : Byte) (w : CodeWord) : (s.placeWord p w).codemem = Memory.insert s.codemem p.toNat w := rfl
@[simp] theorem State.placeWord_halted (p : Byte) (w : CodeWord) : (s.placeWord p w).halted = s.halted := rfl
@[simp] theorem State.placeWord_cfg (p : Byte) (w : CodeWord) : (s.placeWord p w).cfg = s.cfg := rfl
@[simp] theorem State.reg_placeWord (p : Byte) (w : CodeWord) (r : RegNum) : (s.placeWord p w).reg r = s.reg r := rfl
@[simp] theorem State.cell_placeWord (p : Byte) (w : CodeWord) (x : Byte) : (s.placeWord p w).cell x = s.cell x := rfl
@[simp] theorem State.inPlatform_placeWord (p : Byte) (w : CodeWord) (x : Byte) : (s.placeWord p w).inPlatform x = s.inPlatform x := rfl

/-! ### A register read after a register write -/

@[simp] theorem State.reg_setReg_same (a : RegNum) (v : Byte) : (s.setReg a v).reg a = v := by
  simp [State.reg, State.setReg]

theorem State.reg_setReg_ne {a r : RegNum} (v : Byte) (h : r ≠ a) :
    (s.setReg a v).reg r = s.reg r := by
  have : a.val ≠ r.val := fun e => h (Fin.ext e.symm)
  simp [State.reg, State.setReg, this]

theorem State.reg_setReg (a r : RegNum) (v : Byte) :
    (s.setReg a v).reg r = if r = a then v else s.reg r := by
  split
  · next h => subst h; exact State.reg_setReg_same s r v
  · next h => exact State.reg_setReg_ne s v h

/-! ### The launch -/

variable (cfg : Config) (regs : Vector Byte 8) (sreg : SReg) (data : List Host.Cell)
  (code : List CodeCell)

@[simp] theorem State.launch_regs : (State.launch cfg regs sreg data code).regs = regs := rfl
@[simp] theorem State.launch_pc : (State.launch cfg regs sreg data code).pc = cfg.pcReset := rfl
@[simp] theorem State.launch_sp : (State.launch cfg regs sreg data code).sp = cfg.spReset := rfl
@[simp] theorem State.launch_sreg : (State.launch cfg regs sreg data code).sreg = sreg := rfl
@[simp] theorem State.launch_datamem : (State.launch cfg regs sreg data code).datamem = data := rfl
@[simp] theorem State.launch_codemem : (State.launch cfg regs sreg data code).codemem = code := rfl
@[simp] theorem State.launch_halted : (State.launch cfg regs sreg data code).halted = false := rfl
@[simp] theorem State.launch_cfg : (State.launch cfg regs sreg data code).cfg = cfg := rfl

end Sys2Proof.Machine
end

