-- ==== Sys2Proof/Laws/Memory.lean ====
section
/-! SUPPORT. The laws of the two memories: what a read gives after a write, and that every operation
keeps the canonical form. -/

namespace Sys2Proof.Machine

section Lists

variable {α : Type}

theorem Memory.lookup_insert (m : List (Nat × α)) (a b : Nat) (v : α) :
    Memory.lookup (Memory.insert m a v) b = if b = a then some v else Memory.lookup m b := by
  induction m with
  | nil => simp [Memory.insert, Memory.lookup]
  | cons x rest ih =>
    obtain ⟨k, y⟩ := x
    simp only [Memory.insert]
    split
    · simp [Memory.lookup]
    · split
      · next h => subst h; by_cases hb : b = a <;> simp [Memory.lookup, hb]
      · next h =>
        by_cases hb : b = k
        · subst hb; simp [Memory.lookup, Ne.symm h]
        · simp [Memory.lookup, hb, ih]

theorem Memory.lookup_eq_none_of_lt {m : List (Nat × α)} {a : Nat} (h : ∀ x ∈ m, a < x.1) :
    Memory.lookup m a = none := by
  induction m with
  | nil => rfl
  | cons x rest ih =>
    have hx := h x (by simp)
    simp [Memory.lookup, Nat.ne_of_lt hx, ih fun y hy => h y (by simp [hy])]

theorem Memory.lookup_erase {m : List (Nat × α)} (hm : m.Pairwise fun x y => x.1 < y.1) (a b : Nat) :
    Memory.lookup (Memory.erase m a) b = if b = a then none else Memory.lookup m b := by
  induction m with
  | nil => simp [Memory.erase, Memory.lookup]
  | cons x rest ih =>
    obtain ⟨hx, hrest⟩ := List.pairwise_cons.1 hm
    simp only [Memory.erase]
    split
    · next h =>
      subst h
      by_cases hb : b = x.1
      · subst hb; simp [Memory.lookup_eq_none_of_lt hx]
      · simp [Memory.lookup, hb]
    · next h =>
      by_cases hb : b = x.1
      · subst hb; simp [Memory.lookup, Ne.symm h]
      · simp [Memory.lookup, hb, ih hrest]

theorem Memory.mem_insert {m : List (Nat × α)} {a : Nat} {v : α} {x : Nat × α}
    (h : x ∈ Memory.insert m a v) : x = (a, v) ∨ x ∈ m := by
  induction m with
  | nil => simpa [Memory.insert] using h
  | cons y rest ih =>
    simp only [Memory.insert] at h
    split at h
    · simpa using h
    · split at h
      · exact (List.mem_cons.1 h).imp_right (List.mem_cons_of_mem _)
      · rcases List.mem_cons.1 h with h | h
        · simp [h]
        · exact (ih h).imp_right (List.mem_cons_of_mem _)

theorem Memory.mem_of_mem_erase {m : List (Nat × α)} {a : Nat} {x : Nat × α}
    (h : x ∈ Memory.erase m a) : x ∈ m := by
  induction m with
  | nil => simp [Memory.erase] at h
  | cons y rest ih =>
    simp only [Memory.erase] at h
    split at h
    · exact List.mem_cons_of_mem _ h
    · rcases List.mem_cons.1 h with h | h
      · simp [h]
      · exact List.mem_cons_of_mem _ (ih h)

theorem Memory.rising_insert {m : List (Nat × α)} (hm : m.Pairwise fun x y => x.1 < y.1) (a : Nat)
    (v : α) : (Memory.insert m a v).Pairwise fun x y => x.1 < y.1 := by
  induction m with
  | nil => simp [Memory.insert]
  | cons y rest ih =>
    obtain ⟨hy, hrest⟩ := List.pairwise_cons.1 hm
    simp only [Memory.insert]
    split
    · next h =>
      refine List.pairwise_cons.2 ⟨fun x hx => ?_, hm⟩
      rcases List.mem_cons.1 hx with rfl | hx
      · exact h
      · exact Nat.lt_trans h (hy x hx)
    · split
      · next h => subst h; exact List.pairwise_cons.2 ⟨hy, hrest⟩
      · next hlt hne =>
        refine List.pairwise_cons.2 ⟨fun x hx => ?_, ih hrest⟩
        rcases Memory.mem_insert hx with rfl | hx
        · show y.1 < a; omega
        · exact hy x hx

theorem Memory.rising_erase {m : List (Nat × α)} (hm : m.Pairwise fun x y => x.1 < y.1) (a : Nat) :
    (Memory.erase m a).Pairwise fun x y => x.1 < y.1 := by
  induction m with
  | nil => exact hm
  | cons y rest ih =>
    obtain ⟨hy, hrest⟩ := List.pairwise_cons.1 hm
    simp only [Memory.erase]
    split
    · exact hrest
    · exact List.pairwise_cons.2 ⟨fun x hx => hy x (Memory.mem_of_mem_erase hx), ih hrest⟩

end Lists

/-- What one read of data memory gives after one write. -/
theorem Memory.read_write {m : List Host.Cell} (hm : Memory.wf m) (a b : Nat) (v : Byte) :
    Memory.read (Memory.write m a v) b = if b = a then v else Memory.read m b := by
  unfold Memory.read Memory.write
  by_cases hv : v = Memory.unlisted
  · rw [if_pos hv, Memory.lookup_erase hm.1]; split <;> simp [hv]
  · rw [if_neg hv, Memory.lookup_insert]; split <;> simp

/-- Writing data memory keeps its canonical form. -/
theorem Memory.wf_write {m : List Host.Cell} (hm : Memory.wf m) {a : Nat} (ha : a < 256) (v : Byte) :
    Memory.wf (Memory.write m a v) := by
  unfold Memory.write
  split
  · exact ⟨Memory.rising_erase hm.1 a, fun x hx => hm.2 x (Memory.mem_of_mem_erase hx)⟩
  · next hv =>
    refine ⟨Memory.rising_insert hm.1 a v, fun x hx => ?_⟩
    rcases Memory.mem_insert hx with rfl | hx
    · exact ⟨ha, hv⟩
    · exact hm.2 x hx

/-- Placing a word of the program image keeps the canonical form of code memory. -/
theorem Code.wf_insert {m : List CodeCell} (hm : Code.wf m) {a : Nat} (ha : a < 256) (w : CodeWord) :
    Code.wf (Memory.insert m a w) := by
  refine ⟨Memory.rising_insert hm.1 a w, fun x hx => ?_⟩
  rcases Memory.mem_insert hx with rfl | hx
  · exact ha
  · exact hm.2 x hx

/-- What one data cell holds after a write to one cell, in a canonical data memory. -/
theorem State.cell_setCell {s : State} (h : Memory.wf s.datamem) (a v b : Byte) :
    (s.setCell a v).cell b = if b = a then v else s.cell b := by
  simp only [State.cell, State.setCell, Memory.read_write h, BitVec.toNat_inj]

/-- What a fetch from one address finds after the host placed a word. -/
theorem State.codeWord_placeWord (s : State) (p : Byte) (w : CodeWord) (q : Byte) :
    (s.placeWord p w).codeWord q = if q = p then some w else s.codeWord q := by
  simp only [State.codeWord, State.placeWord, Memory.lookup_insert, BitVec.toNat_inj]

theorem State.inv_setCell {s : State} (h : s.Inv) (a v : Byte) : (s.setCell a v).Inv :=
  ⟨Memory.wf_write h.1 a.isLt v, h.2⟩

theorem State.inv_placeWord {s : State} (h : s.Inv) (p : Byte) (w : CodeWord) :
    (s.placeWord p w).Inv :=
  ⟨h.1, Code.wf_insert h.2 p.isLt w⟩

/-- The invariant says something of the two memories only. -/
theorem State.inv_of_memories {s t : State} (h : s.Inv) (hd : t.datamem = s.datamem)
    (hc : t.codemem = s.codemem) : t.Inv := by
  unfold State.Inv; rw [hd, hc]; exact h

/-- The reset state's memories are canonical. -/
theorem Memory.wf_reset : Memory.wf State.reset.datamem := by decide

end Sys2Proof.Machine
end

