-- ==== Sys2Proof/Laws/Ops.lean ====
section
/-! SUPPORT. What each shared operation answers: next when and with what, fault when and which. -/

namespace Sys2Proof.Machine

theorem State.inPlatform_iff (s : State) (a : Byte) :
    s.inPlatform a = true ↔ a ∈ s.cfg.platformRegions := by
  simp [State.inPlatform]

theorem State.inPlatform_eq_false_iff (s : State) (a : Byte) :
    s.inPlatform a = false ↔ a ∉ s.cfg.platformRegions := by
  simp [State.inPlatform]

section

variable {s t : State} {a v : Byte}

theorem readThen_next_iff {k : Byte → State} :
    readThen s a k = .next t ↔ s.inPlatform a = false ∧ t = k (s.cell a) := by
  unfold readThen; cases s.inPlatform a <;> simp [eq_comm]

theorem readThen_fault_iff {k : Byte → State} {f : Fault} :
    readThen s a k = .fault f ↔ s.inPlatform a = true ∧ f = .unmodelledRegion a := by
  unfold readThen; cases s.inPlatform a <;> simp [eq_comm]

theorem readThen_ne_refused {k : Byte → State} {r : Refusal} : readThen s a k ≠ .refused r := by
  unfold readThen; cases s.inPlatform a <;> simp

theorem writeThen_next_iff {k : State → State} :
    writeThen s a v k = .next t ↔ s.inPlatform a = false ∧ t = k (s.setCell a v) := by
  unfold writeThen; cases s.inPlatform a <;> simp [eq_comm]

theorem writeThen_fault_iff {k : State → State} {f : Fault} :
    writeThen s a v k = .fault f ↔ s.inPlatform a = true ∧ f = .unmodelledRegion a := by
  unfold writeThen; cases s.inPlatform a <;> simp [eq_comm]

theorem writeThen_ne_refused {k : State → State} {r : Refusal} :
    writeThen s a v k ≠ .refused r := by
  unfold writeThen; cases s.inPlatform a <;> simp

theorem pushThen_next_iff {k : State → State} :
    pushThen s v k = .next t ↔
      s.inPlatform s.sp = false ∧ t = k ((s.setCell s.sp v).setSp (s.sp - 1)) :=
  writeThen_next_iff

theorem pushThen_fault_iff {k : State → State} {f : Fault} :
    pushThen s v k = .fault f ↔ s.inPlatform s.sp = true ∧ f = .unmodelledRegion s.sp :=
  writeThen_fault_iff

theorem pushThen_ne_refused {k : State → State} {r : Refusal} : pushThen s v k ≠ .refused r :=
  writeThen_ne_refused

theorem popThen_next_iff {k : Byte → State → State} :
    popThen s k = .next t ↔
      s.inPlatform (s.sp + 1) = false ∧ t = k (s.cell (s.sp + 1)) (s.setSp (s.sp + 1)) :=
  readThen_next_iff

theorem popThen_fault_iff {k : Byte → State → State} {f : Fault} :
    popThen s k = .fault f ↔
      s.inPlatform (s.sp + 1) = true ∧ f = .unmodelledRegion (s.sp + 1) :=
  readThen_fault_iff

theorem popThen_ne_refused {k : Byte → State → State} {r : Refusal} : popThen s k ≠ .refused r :=
  readThen_ne_refused

end

section

variable {s t : State} {sb : StatusNum} {k : Flag → State}

theorem withFlag_next_iff :
    withFlag s sb k = .next t ↔ ∃ f, Flag.ofNum? sb = some f ∧ t = k f := by
  unfold withFlag; cases Flag.ofNum? sb <;> simp [eq_comm]

theorem withFlag_fault_iff {f : Fault} :
    withFlag s sb k = .fault f ↔
      Flag.ofNum? sb = none ∧ f = .reservedStatusBit s.iaddr sb := by
  unfold withFlag; cases Flag.ofNum? sb <;> simp [eq_comm]

theorem withFlag_ne_refused {r : Refusal} : withFlag s sb k ≠ .refused r := by
  unfold withFlag; cases Flag.ofNum? sb <;> simp

end

/-- Exactly the named bit numbers resolve to a flag. -/
theorem Flag.ofNum?_eq_none_iff (sb : StatusNum) :
    Flag.ofNum? sb = none ↔ StatusNum.named sb = false := by
  revert sb; decide

section

variable (s : State) (b : Bool) (k : Byte)

@[simp] theorem State.branchIf_true : s.branchIf true k = s.setPc k := rfl
@[simp] theorem State.branchIf_false : s.branchIf false k = s := rfl
@[simp] theorem State.branchIf_pc : (s.branchIf b k).pc = if b then k else s.pc := by
  cases b <;> rfl
@[simp] theorem State.branchIf_regs : (s.branchIf b k).regs = s.regs := by cases b <;> rfl
@[simp] theorem State.branchIf_sp : (s.branchIf b k).sp = s.sp := by cases b <;> rfl
@[simp] theorem State.branchIf_sreg : (s.branchIf b k).sreg = s.sreg := by cases b <;> rfl
@[simp] theorem State.branchIf_datamem : (s.branchIf b k).datamem = s.datamem := by
  cases b <;> rfl
@[simp] theorem State.branchIf_codemem : (s.branchIf b k).codemem = s.codemem := by
  cases b <;> rfl
@[simp] theorem State.branchIf_halted : (s.branchIf b k).halted = s.halted := by cases b <;> rfl
@[simp] theorem State.branchIf_cfg : (s.branchIf b k).cfg = s.cfg := by cases b <;> rfl
@[simp] theorem State.reg_branchIf (r : RegNum) : (s.branchIf b k).reg r = s.reg r := by
  cases b <;> rfl
@[simp] theorem State.cell_branchIf (x : Byte) : (s.branchIf b k).cell x = s.cell x := by
  cases b <;> rfl

end

end Sys2Proof.Machine
end

