-- ==== Sys2Proof/Laws/Flags.lean ====
section
/-! SUPPORT. One bit of the status register read after one bit was written, the flags of a result, and
the state after an ALU instruction, field by field. -/

namespace Sys2Proof.Machine

@[simp] theorem SReg.get_set_same (r : SReg) (f : Flag) (b : Bool) : (r.set f b).get f = b := by
  cases f <;> rfl

theorem SReg.get_set_ne (r : SReg) {f g : Flag} (b : Bool) (h : g ≠ f) :
    (r.set f b).get g = r.get g := by
  cases f <;> cases g <;> first | rfl | exact absurd rfl h

/-- Two status registers with the same five bits are one. -/
theorem SReg.ext_get {r q : SReg} (h : ∀ f, r.get f = q.get f) : r = q := by
  obtain ⟨c, z, n, v, s⟩ := r
  obtain ⟨c', z', n', v', s'⟩ := q
  have hc := h .c
  have hz := h .z
  have hn := h .n
  have hv := h .v
  have hs := h .s
  simp only [SReg.get] at hc hz hn hv hs
  rw [hc, hz, hn, hv, hs]

section

variable (r : Byte) (v c : Bool)

@[simp] theorem SReg.ofResult_c : (SReg.ofResult r v c).c = c := rfl
@[simp] theorem SReg.ofResult_z : (SReg.ofResult r v c).z = (r == 0#8) := rfl
@[simp] theorem SReg.ofResult_n : (SReg.ofResult r v c).n = r.msb := rfl
@[simp] theorem SReg.ofResult_v : (SReg.ofResult r v c).v = v := rfl
@[simp] theorem SReg.ofResult_s : (SReg.ofResult r v c).s = (r.msb ^^ v) := rfl

end

/-- An operation that writes any flag writes Z, N and S from its result and its new V (R142). -/
theorem aluFlags_common {op : AluOp} (h : op ≠ .tra ∧ op ≠ .trb) (a b : Byte) (old : SReg) :
    (aluFlags op a b old).z = (aluResult op a b old.c == 0#8) ∧
    (aluFlags op a b old).n = (aluResult op a b old.c).msb ∧
    (aluFlags op a b old).s = ((aluFlags op a b old).n ^^ (aluFlags op a b old).v) := by
  cases op <;> first | exact ⟨rfl, rfl, rfl⟩ | simp at h

section

variable (s : State) (op : AluOp) (a : RegNum) (x y : Byte)

@[simp] theorem State.alu_reg_same : (s.alu op a x y).reg a = aluResult op x y s.sreg.c := by
  simp [State.alu]

theorem State.alu_reg_ne {r : RegNum} (h : r ≠ a) : (s.alu op a x y).reg r = s.reg r := by
  simp [State.alu, State.reg_setReg_ne _ _ h]

@[simp] theorem State.alu_sreg : (s.alu op a x y).sreg = aluFlags op x y s.sreg := rfl
@[simp] theorem State.alu_pc : (s.alu op a x y).pc = s.pc := rfl
@[simp] theorem State.alu_sp : (s.alu op a x y).sp = s.sp := rfl
@[simp] theorem State.alu_datamem : (s.alu op a x y).datamem = s.datamem := rfl
@[simp] theorem State.alu_codemem : (s.alu op a x y).codemem = s.codemem := rfl
@[simp] theorem State.alu_halted : (s.alu op a x y).halted = s.halted := rfl
@[simp] theorem State.alu_cfg : (s.alu op a x y).cfg = s.cfg := rfl
@[simp] theorem State.alu_cell (p : Byte) : (s.alu op a x y).cell p = s.cell p := rfl

theorem State.aluTwo_eq (b : RegNum) : s.aluTwo op a b = s.alu op a (s.reg a) (s.reg b) := rfl
theorem State.aluOne_eq : s.aluOne op a = s.alu op a (s.reg a) 0#8 := rfl

end

/-! ### The one-place shifts -/

theorem shr_toNat (a : Byte) (c : Bool) : (shr a c).toNat = 128 * c.toNat + a.toNat / 2 := by
  revert a c; decide

theorem shl_toNat (a : Byte) (c : Bool) : (shl a c).toNat = (2 * a.toNat + c.toNat) % 256 := by
  revert a c; decide

/-- The bit that enters at the vacated end. -/
theorem shr_entering (a : Byte) (c : Bool) : (shr a c).getLsbD 7 = c := by
  revert a c; decide

theorem shl_entering (a : Byte) (c : Bool) : (shl a c).getLsbD 0 = c := by
  revert a c; decide

/-- The sign bit of a byte is its bit 7. -/
theorem msb_eq_bit7 (a : Byte) : a.msb = a.getLsbD 7 := by
  simp [BitVec.msb_eq_getLsbD_last]

end Sys2Proof.Machine
end

