-- ==== Sys2Proof/Laws/Exec.lean ====
section
/-! SUPPORT. For each instruction, exactly when `exec` answers a next state and which one: the one
lemma per meaning that later proofs cite. -/

namespace Sys2Proof.Machine

variable {s t : State} {a b : RegNum} {k : Byte} {sb : StatusNum}

theorem exec_ldi_next : exec (.ldi a k) s = .next t ↔ t = s.setReg a k := by
  simp [exec, execLdi, eq_comm]

theorem exec_mov_next : exec (.mov a b) s = .next t ↔ t = s.setReg a (s.reg b) := by
  simp [exec, execMov, eq_comm]

theorem exec_add_next : exec (.add a b) s = .next t ↔ t = s.alu .add a (s.reg a) (s.reg b) := by
  simp [exec, execAdd, State.aluTwo, eq_comm]

theorem exec_sub_next : exec (.sub a b) s = .next t ↔ t = s.alu .sub a (s.reg a) (s.reg b) := by
  simp [exec, execSub, State.aluTwo, eq_comm]

theorem exec_and_next : exec (.and a b) s = .next t ↔ t = s.alu .and a (s.reg a) (s.reg b) := by
  simp [exec, execAnd, State.aluTwo, eq_comm]

theorem exec_or_next : exec (.or a b) s = .next t ↔ t = s.alu .or a (s.reg a) (s.reg b) := by
  simp [exec, execOr, State.aluTwo, eq_comm]

theorem exec_eor_next : exec (.eor a b) s = .next t ↔ t = s.alu .eor a (s.reg a) (s.reg b) := by
  simp [exec, execEor, State.aluTwo, eq_comm]

theorem exec_ror_next : exec (.ror a) s = .next t ↔ t = s.alu .ror a (s.reg a) 0#8 := by
  simp [exec, execRor, State.aluOne, eq_comm]

theorem exec_rol_next : exec (.rol a) s = .next t ↔ t = s.alu .rol a (s.reg a) 0#8 := by
  simp [exec, execRol, State.aluOne, eq_comm]

theorem exec_stop_next : exec .stop s = .next t ↔ t = s.halt := by
  simp [exec, execStop, eq_comm]

theorem exec_jmp_next : exec (.jmp k) s = .next t ↔ t = s.setPc k := by
  simp [exec, execJmp, eq_comm]

theorem exec_brbs_next : exec (.brbs sb k) s = .next t ↔
    ∃ f, Flag.ofNum? sb = some f ∧ t = s.branchIf (s.sreg.get f) k := withFlag_next_iff

theorem exec_brbc_next : exec (.brbc sb k) s = .next t ↔
    ∃ f, Flag.ofNum? sb = some f ∧ t = s.branchIf (!s.sreg.get f) k := withFlag_next_iff

theorem exec_bclr_next : exec (.bclr sb) s = .next t ↔
    ∃ f, Flag.ofNum? sb = some f ∧ t = s.setSreg (s.sreg.set f false) := withFlag_next_iff

theorem exec_bset_next : exec (.bset sb) s = .next t ↔
    ∃ f, Flag.ofNum? sb = some f ∧ t = s.setSreg (s.sreg.set f true) := withFlag_next_iff

theorem exec_ld_next : exec (.ld a b) s = .next t ↔
    s.inPlatform (s.reg b) = false ∧ t = s.setReg a (s.cell (s.reg b)) := readThen_next_iff

theorem exec_lds_next : exec (.lds a k) s = .next t ↔
    s.inPlatform k = false ∧ t = s.setReg a (s.cell k) := readThen_next_iff

theorem exec_st_next : exec (.st a b) s = .next t ↔
    s.inPlatform (s.reg b) = false ∧ t = s.setCell (s.reg b) (s.reg a) := writeThen_next_iff

theorem exec_sts_next : exec (.sts a k) s = .next t ↔
    s.inPlatform k = false ∧ t = s.setCell k (s.reg a) := writeThen_next_iff

theorem exec_push_next : exec (.push a) s = .next t ↔
    s.inPlatform s.sp = false ∧ t = (s.setCell s.sp (s.reg a)).setSp (s.sp - 1) :=
  pushThen_next_iff

theorem exec_pop_next : exec (.pop a) s = .next t ↔
    s.inPlatform (s.sp + 1) = false ∧
      t = (s.setSp (s.sp + 1)).setReg a (s.cell (s.sp + 1)) :=
  popThen_next_iff (k := fun v u => u.setReg a v)

theorem exec_call_next : exec (.call k) s = .next t ↔
    s.inPlatform s.sp = false ∧ t = ((s.setCell s.sp s.pc).setSp (s.sp - 1)).setPc k :=
  pushThen_next_iff (k := fun u => u.setPc k)

theorem exec_ret_next : exec .ret s = .next t ↔
    s.inPlatform (s.sp + 1) = false ∧
      t = (s.setSp (s.sp + 1)).setPc (s.cell (s.sp + 1)) :=
  popThen_next_iff (k := fun v u => u.setPc v)

/-- What an instruction can do to data memory: nothing, or one cell written. -/
theorem exec_next_datamem {i : Instr} (h : exec i s = .next t) :
    t.datamem = s.datamem ∨ ∃ x v : Byte, t.datamem = (s.setCell x v).datamem := by
  cases i with
  | ldi a k => left; simp [exec_ldi_next.1 h]
  | mov a b => left; simp [exec_mov_next.1 h]
  | add a b => left; simp [exec_add_next.1 h]
  | sub a b => left; simp [exec_sub_next.1 h]
  | stop => left; simp [exec_stop_next.1 h]
  | ld a b => left; simp [(exec_ld_next.1 h).2]
  | st a b => right; exact ⟨_, _, by rw [(exec_st_next.1 h).2]⟩
  | lds a k => left; simp [(exec_lds_next.1 h).2]
  | sts a k => right; exact ⟨_, _, by rw [(exec_sts_next.1 h).2]⟩
  | jmp k => left; simp [exec_jmp_next.1 h]
  | brbs s k => left; obtain ⟨f, -, rfl⟩ := exec_brbs_next.1 h; simp
  | brbc s k => left; obtain ⟨f, -, rfl⟩ := exec_brbc_next.1 h; simp
  | and a b => left; simp [exec_and_next.1 h]
  | or a b => left; simp [exec_or_next.1 h]
  | eor a b => left; simp [exec_eor_next.1 h]
  | ror a => left; simp [exec_ror_next.1 h]
  | rol a => left; simp [exec_rol_next.1 h]
  | bclr s => left; obtain ⟨f, -, rfl⟩ := exec_bclr_next.1 h; simp
  | bset s => left; obtain ⟨f, -, rfl⟩ := exec_bset_next.1 h; simp
  | push a => right; exact ⟨_, _, by rw [(exec_push_next.1 h).2]; rfl⟩
  | pop a => left; simp [(exec_pop_next.1 h).2]
  | call k => right; exact ⟨_, _, by rw [(exec_call_next.1 h).2]; rfl⟩
  | ret => left; simp [(exec_ret_next.1 h).2]

/-- No instruction writes code memory or the open parameters (R34). -/
theorem exec_next_fixed {i : Instr} (h : exec i s = .next t) :
    t.codemem = s.codemem ∧ t.cfg = s.cfg := by
  cases i with
  | ldi a k => simp [exec_ldi_next.1 h]
  | mov a b => simp [exec_mov_next.1 h]
  | add a b => simp [exec_add_next.1 h]
  | sub a b => simp [exec_sub_next.1 h]
  | stop => simp [exec_stop_next.1 h]
  | ld a b => simp [(exec_ld_next.1 h).2]
  | st a b => simp [(exec_st_next.1 h).2]
  | lds a k => simp [(exec_lds_next.1 h).2]
  | sts a k => simp [(exec_sts_next.1 h).2]
  | jmp k => simp [exec_jmp_next.1 h]
  | brbs s k => obtain ⟨f, -, rfl⟩ := exec_brbs_next.1 h; simp
  | brbc s k => obtain ⟨f, -, rfl⟩ := exec_brbc_next.1 h; simp
  | and a b => simp [exec_and_next.1 h]
  | or a b => simp [exec_or_next.1 h]
  | eor a b => simp [exec_eor_next.1 h]
  | ror a => simp [exec_ror_next.1 h]
  | rol a => simp [exec_rol_next.1 h]
  | bclr s => obtain ⟨f, -, rfl⟩ := exec_bclr_next.1 h; simp
  | bset s => obtain ⟨f, -, rfl⟩ := exec_bset_next.1 h; simp
  | push a => simp [(exec_push_next.1 h).2]
  | pop a => simp [(exec_pop_next.1 h).2]
  | call k => simp [(exec_call_next.1 h).2]
  | ret => simp [(exec_ret_next.1 h).2]

/-- Only STOP writes the halted bit (R35). -/
theorem exec_next_halted {i : Instr} (h : exec i s = .next t) :
    (i = .stop ∧ t.halted = true) ∨ (i ≠ .stop ∧ t.halted = s.halted) := by
  cases i with
  | stop => left; simp [exec_stop_next.1 h]
  | ldi a k => right; simp [exec_ldi_next.1 h]
  | mov a b => right; simp [exec_mov_next.1 h]
  | add a b => right; simp [exec_add_next.1 h]
  | sub a b => right; simp [exec_sub_next.1 h]
  | ld a b => right; simp [(exec_ld_next.1 h).2]
  | st a b => right; simp [(exec_st_next.1 h).2]
  | lds a k => right; simp [(exec_lds_next.1 h).2]
  | sts a k => right; simp [(exec_sts_next.1 h).2]
  | jmp k => right; simp [exec_jmp_next.1 h]
  | brbs s k => right; obtain ⟨f, -, rfl⟩ := exec_brbs_next.1 h; simp
  | brbc s k => right; obtain ⟨f, -, rfl⟩ := exec_brbc_next.1 h; simp
  | and a b => right; simp [exec_and_next.1 h]
  | or a b => right; simp [exec_or_next.1 h]
  | eor a b => right; simp [exec_eor_next.1 h]
  | ror a => right; simp [exec_ror_next.1 h]
  | rol a => right; simp [exec_rol_next.1 h]
  | bclr s => right; obtain ⟨f, -, rfl⟩ := exec_bclr_next.1 h; simp
  | bset s => right; obtain ⟨f, -, rfl⟩ := exec_bset_next.1 h; simp
  | push a => right; simp [(exec_push_next.1 h).2]
  | pop a => right; simp [(exec_pop_next.1 h).2]
  | call k => right; simp [(exec_call_next.1 h).2]
  | ret => right; simp [(exec_ret_next.1 h).2]

/-- No instruction is refused. -/
theorem exec_ne_refused {i : Instr} {r : Refusal} : exec i s ≠ .refused r := by
  cases i with
  | push a => exact pushThen_ne_refused (k := id)
  | pop a => exact popThen_ne_refused (k := fun v u => u.setReg a v)
  | call k => exact pushThen_ne_refused (k := fun u => u.setPc k)
  | ret => exact popThen_ne_refused (k := fun v u => u.setPc v)
  | ld a b => exact readThen_ne_refused
  | lds a k => exact readThen_ne_refused
  | st a b => exact writeThen_ne_refused
  | sts a k => exact writeThen_ne_refused
  | brbs s k => exact withFlag_ne_refused
  | brbc s k => exact withFlag_ne_refused
  | bclr s => exact withFlag_ne_refused
  | bset s => exact withFlag_ne_refused
  | ldi | mov | add | sub | and | or | eor | ror | rol | stop | jmp => intro h; cases h

end Sys2Proof.Machine
end

