-- ==== Sys2Proof/Laws/PerInstr.lean ====
section
/-! SUPPORT. Two facts about every instruction, made per constructor: its word selects it again (R81,
R84 steps 1, 2, 4), and its word has 0 in every must-be-zero bit of its format (R83, R97). -/

namespace Sys2Proof.Laws

/-- The op code map and the fields give back the instruction whose word this is. -/
def SelectsItself.Statement (i : Instr) : Prop := selectInstr (encode i) = some i

theorem SelectsItself.ldi (a : RegNum) (k : Byte) : SelectsItself.Statement (.ldi a k) := by
  simp [SelectsItself.Statement, encode, selectInstr]

theorem SelectsItself.mov (a : RegNum) (b : RegNum) : SelectsItself.Statement (.mov a b) := by
  simp [SelectsItself.Statement, encode, selectInstr]

theorem SelectsItself.add (a : RegNum) (b : RegNum) : SelectsItself.Statement (.add a b) := by
  simp [SelectsItself.Statement, encode, selectInstr]

theorem SelectsItself.sub (a : RegNum) (b : RegNum) : SelectsItself.Statement (.sub a b) := by
  simp [SelectsItself.Statement, encode, selectInstr]

theorem SelectsItself.stop : SelectsItself.Statement .stop := by
  simp [SelectsItself.Statement, encode, selectInstr]

theorem SelectsItself.ld (a : RegNum) (b : RegNum) : SelectsItself.Statement (.ld a b) := by
  simp [SelectsItself.Statement, encode, selectInstr]

theorem SelectsItself.st (a : RegNum) (b : RegNum) : SelectsItself.Statement (.st a b) := by
  simp [SelectsItself.Statement, encode, selectInstr]

theorem SelectsItself.lds (a : RegNum) (k : Byte) : SelectsItself.Statement (.lds a k) := by
  simp [SelectsItself.Statement, encode, selectInstr]

theorem SelectsItself.sts (a : RegNum) (k : Byte) : SelectsItself.Statement (.sts a k) := by
  simp [SelectsItself.Statement, encode, selectInstr]

theorem SelectsItself.jmp (k : Byte) : SelectsItself.Statement (.jmp k) := by
  simp [SelectsItself.Statement, encode, selectInstr]

theorem SelectsItself.brbs (s : StatusNum) (k : Byte) : SelectsItself.Statement (.brbs s k) := by
  simp [SelectsItself.Statement, encode, selectInstr]

theorem SelectsItself.brbc (s : StatusNum) (k : Byte) : SelectsItself.Statement (.brbc s k) := by
  simp [SelectsItself.Statement, encode, selectInstr]

theorem SelectsItself.and (a : RegNum) (b : RegNum) : SelectsItself.Statement (.and a b) := by
  simp [SelectsItself.Statement, encode, selectInstr]

theorem SelectsItself.or (a : RegNum) (b : RegNum) : SelectsItself.Statement (.or a b) := by
  simp [SelectsItself.Statement, encode, selectInstr]

theorem SelectsItself.eor (a : RegNum) (b : RegNum) : SelectsItself.Statement (.eor a b) := by
  simp [SelectsItself.Statement, encode, selectInstr]

theorem SelectsItself.ror (a : RegNum) : SelectsItself.Statement (.ror a) := by
  simp [SelectsItself.Statement, encode, selectInstr]

theorem SelectsItself.rol (a : RegNum) : SelectsItself.Statement (.rol a) := by
  simp [SelectsItself.Statement, encode, selectInstr]

theorem SelectsItself.bclr (s : StatusNum) : SelectsItself.Statement (.bclr s) := by
  simp [SelectsItself.Statement, encode, selectInstr]

theorem SelectsItself.bset (s : StatusNum) : SelectsItself.Statement (.bset s) := by
  simp [SelectsItself.Statement, encode, selectInstr]

theorem SelectsItself.push (a : RegNum) : SelectsItself.Statement (.push a) := by
  simp [SelectsItself.Statement, encode, selectInstr]

theorem SelectsItself.pop (a : RegNum) : SelectsItself.Statement (.pop a) := by
  simp [SelectsItself.Statement, encode, selectInstr]

theorem SelectsItself.call (k : Byte) : SelectsItself.Statement (.call k) := by
  simp [SelectsItself.Statement, encode, selectInstr]

theorem SelectsItself.ret : SelectsItself.Statement .ret := by
  simp [SelectsItself.Statement, encode, selectInstr]

/-- The must-be-zero check passes on the instruction's own word. -/
def ZeroBits.Statement (i : Instr) : Prop := zeroBitsOk i (encode i) = true

theorem ZeroBits.ldi (a : RegNum) (k : Byte) : ZeroBits.Statement (.ldi a k) := by
  rw [ZeroBits.Statement, zeroBitsOk_iff]
  simp only [encode, fieldOp_wordRK]
  exact wordRK_mask_RK _ _ _

theorem ZeroBits.mov (a : RegNum) (b : RegNum) : ZeroBits.Statement (.mov a b) := by
  rw [ZeroBits.Statement, zeroBitsOk_iff]
  simp only [encode, fieldOp_wordRR]
  exact wordRR_mask _ _ _

theorem ZeroBits.add (a : RegNum) (b : RegNum) : ZeroBits.Statement (.add a b) := by
  rw [ZeroBits.Statement, zeroBitsOk_iff]
  simp only [encode, fieldOp_wordRR]
  exact wordRR_mask _ _ _

theorem ZeroBits.sub (a : RegNum) (b : RegNum) : ZeroBits.Statement (.sub a b) := by
  rw [ZeroBits.Statement, zeroBitsOk_iff]
  simp only [encode, fieldOp_wordRR]
  exact wordRR_mask _ _ _

theorem ZeroBits.stop : ZeroBits.Statement .stop := by
  rw [ZeroBits.Statement, zeroBitsOk_iff]
  simp only [encode, fieldOp_wordN]
  exact wordN_mask _

theorem ZeroBits.ld (a : RegNum) (b : RegNum) : ZeroBits.Statement (.ld a b) := by
  rw [ZeroBits.Statement, zeroBitsOk_iff]
  simp only [encode, fieldOp_wordRR]
  exact wordRR_mask _ _ _

theorem ZeroBits.st (a : RegNum) (b : RegNum) : ZeroBits.Statement (.st a b) := by
  rw [ZeroBits.Statement, zeroBitsOk_iff]
  simp only [encode, fieldOp_wordRR]
  exact wordRR_mask _ _ _

theorem ZeroBits.lds (a : RegNum) (k : Byte) : ZeroBits.Statement (.lds a k) := by
  rw [ZeroBits.Statement, zeroBitsOk_iff]
  simp only [encode, fieldOp_wordRK]
  exact wordRK_mask_RK _ _ _

theorem ZeroBits.sts (a : RegNum) (k : Byte) : ZeroBits.Statement (.sts a k) := by
  rw [ZeroBits.Statement, zeroBitsOk_iff]
  simp only [encode, fieldOp_wordRK]
  exact wordRK_mask_RK _ _ _

theorem ZeroBits.jmp (k : Byte) : ZeroBits.Statement (.jmp k) := by
  rw [ZeroBits.Statement, zeroBitsOk_iff]
  simp only [encode, fieldOp_wordK]
  exact wordK_mask _ _

theorem ZeroBits.brbs (s : StatusNum) (k : Byte) : ZeroBits.Statement (.brbs s k) := by
  rw [ZeroBits.Statement, zeroBitsOk_iff]
  simp only [encode, fieldOp_wordRK]
  exact wordRK_mask_SK _ _ _

theorem ZeroBits.brbc (s : StatusNum) (k : Byte) : ZeroBits.Statement (.brbc s k) := by
  rw [ZeroBits.Statement, zeroBitsOk_iff]
  simp only [encode, fieldOp_wordRK]
  exact wordRK_mask_SK _ _ _

theorem ZeroBits.and (a : RegNum) (b : RegNum) : ZeroBits.Statement (.and a b) := by
  rw [ZeroBits.Statement, zeroBitsOk_iff]
  simp only [encode, fieldOp_wordRR]
  exact wordRR_mask _ _ _

theorem ZeroBits.or (a : RegNum) (b : RegNum) : ZeroBits.Statement (.or a b) := by
  rw [ZeroBits.Statement, zeroBitsOk_iff]
  simp only [encode, fieldOp_wordRR]
  exact wordRR_mask _ _ _

theorem ZeroBits.eor (a : RegNum) (b : RegNum) : ZeroBits.Statement (.eor a b) := by
  rw [ZeroBits.Statement, zeroBitsOk_iff]
  simp only [encode, fieldOp_wordRR]
  exact wordRR_mask _ _ _

theorem ZeroBits.ror (a : RegNum) : ZeroBits.Statement (.ror a) := by
  rw [ZeroBits.Statement, zeroBitsOk_iff]
  simp only [encode, fieldOp_wordR]
  exact wordR_mask_R _ _

theorem ZeroBits.rol (a : RegNum) : ZeroBits.Statement (.rol a) := by
  rw [ZeroBits.Statement, zeroBitsOk_iff]
  simp only [encode, fieldOp_wordR]
  exact wordR_mask_R _ _

theorem ZeroBits.bclr (s : StatusNum) : ZeroBits.Statement (.bclr s) := by
  rw [ZeroBits.Statement, zeroBitsOk_iff]
  simp only [encode, fieldOp_wordR]
  exact wordR_mask_S _ _

theorem ZeroBits.bset (s : StatusNum) : ZeroBits.Statement (.bset s) := by
  rw [ZeroBits.Statement, zeroBitsOk_iff]
  simp only [encode, fieldOp_wordR]
  exact wordR_mask_S _ _

theorem ZeroBits.push (a : RegNum) : ZeroBits.Statement (.push a) := by
  rw [ZeroBits.Statement, zeroBitsOk_iff]
  simp only [encode, fieldOp_wordR]
  exact wordR_mask_R _ _

theorem ZeroBits.pop (a : RegNum) : ZeroBits.Statement (.pop a) := by
  rw [ZeroBits.Statement, zeroBitsOk_iff]
  simp only [encode, fieldOp_wordR]
  exact wordR_mask_R _ _

theorem ZeroBits.call (k : Byte) : ZeroBits.Statement (.call k) := by
  rw [ZeroBits.Statement, zeroBitsOk_iff]
  simp only [encode, fieldOp_wordK]
  exact wordK_mask _ _

theorem ZeroBits.ret : ZeroBits.Statement .ret := by
  rw [ZeroBits.Statement, zeroBitsOk_iff]
  simp only [encode, fieldOp_wordN]
  exact wordN_mask _

end Sys2Proof.Laws
end

