-- ==== Sys2Proof/Laws/Step.lean ====
section
/-! SUPPORT. What a step answers, said once, and an invariant of steps carried along a run. -/

namespace Sys2Proof.Machine

variable {s t : State}

theorem State.fetch_ok_iff {i : Instr} :
    s.fetch = .ok i ↔ ∃ w, s.codeWord s.pc = some w ∧ decode w = .ok i := by
  unfold State.fetch
  cases s.codeWord s.pc with
  | none => simp
  | some w => cases h : decode w <;> simp [h]

theorem State.fetch_error_iff {f : Fault} :
    s.fetch = .error f ↔
      (s.codeWord s.pc = none ∧ f = .fetchOfUnwritten s.pc) ∨
      ∃ w e, s.codeWord s.pc = some w ∧ decode w = .error e ∧ f = faultAt s.pc w e := by
  unfold State.fetch
  cases s.codeWord s.pc with
  | none => simp [eq_comm]
  | some w => cases h : decode w <;> simp [h, eq_comm]

/-- A step that answers a next state ran the instruction it fetched, in a machine not halted. -/
theorem step_next_inv (h : step s = .next t) :
    s.halted = false ∧ ∃ i, s.fetch = .ok i ∧ exec i s.advance = .next t := by
  unfold step at h
  cases hh : s.halted with
  | true => simp [hh] at h
  | false =>
    rw [hh] at h
    cases hf : s.fetch with
    | error f => simp [hf] at h
    | ok i => exact ⟨rfl, i, rfl, by simpa [hf] using h⟩

/-- A step that runs an instruction: the other direction. -/
theorem step_of_fetch {i : Instr} (hh : s.halted = false) (hf : s.fetch = .ok i) :
    step s = exec i s.advance := by
  simp [step, hh, hf]

@[simp] theorem State.advance_pc : s.advance.pc = s.pc + 1 := rfl
@[simp] theorem State.advance_regs : s.advance.regs = s.regs := rfl
@[simp] theorem State.advance_sp : s.advance.sp = s.sp := rfl
@[simp] theorem State.advance_sreg : s.advance.sreg = s.sreg := rfl
@[simp] theorem State.advance_datamem : s.advance.datamem = s.datamem := rfl
@[simp] theorem State.advance_codemem : s.advance.codemem = s.codemem := rfl
@[simp] theorem State.advance_halted : s.advance.halted = s.halted := rfl
@[simp] theorem State.advance_cfg : s.advance.cfg = s.cfg := rfl

/-- No step of a run. -/
theorem run_zero_next : core.run 0 s = .next t ↔ t = s :=
  ⟨fun h => (Host.Outcome.next.inj (show (.next s : Result) = .next t from h)).symm,
    fun h => h ▸ rfl⟩

/-- The first step of any machine's run, then the others. -/
theorem core_run_succ (M : Host.Core) (n : Nat) (x : M.State) :
    M.run (n + 1) x =
      match M.step x with
      | .next y => M.run n y
      | .fault f => .fault f
      | .refused r => .refused r := rfl

theorem core_run_succ_next (M : Host.Core) (n : Nat) (x z : M.State) :
    M.run (n + 1) x = .next z ↔ ∃ y, M.step x = .next y ∧ M.run n y = .next z := by
  rw [core_run_succ]; cases M.step x <;> simp

/-- The first step of a run, then the others. -/
theorem run_succ_next {n : Nat} :
    core.run (n + 1) s = .next t ↔ ∃ u, step s = .next u ∧ core.run n u = .next t :=
  core_run_succ_next core n s t

/-- What holds at the start and is kept by every step holds wherever a run is. -/
theorem run_induction {P : State → Prop} (keep : ∀ u v, P u → step u = .next v → P v) :
    ∀ {n : Nat} {s t : State}, P s → core.run n s = .next t → P t := by
  intro n
  induction n with
  | zero => intro s t hs h; exact run_zero_next.1 h ▸ hs
  | succ n ih =>
    intro s t hs h
    obtain ⟨u, hu, hr⟩ := run_succ_next.1 h
    exact ih (keep s u hs hu) hr

/-- The word that `withFetchWord` places is the one the next fetch decodes. -/
theorem State.fetch_withFetchWord (nbits w : Nat) {i : Instr}
    (h : decode (tableWord nbits w) = .ok i) : (s.withFetchWord nbits w).fetch = .ok i := by
  refine State.fetch_ok_iff.2 ⟨tableWord nbits w, ?_, h⟩
  exact (State.codeWord_placeWord s s.pc (tableWord nbits w) s.pc).trans (if_pos rfl)

@[simp] theorem State.withFetchWord_halted (nbits w : Nat) :
    (s.withFetchWord nbits w).halted = false := rfl

end Sys2Proof.Machine
end

