-- ==== Sys2Proof/Laws/Words.lean ====
section
/-! SUPPORT. The word formulas of the instruction rules (`0x0800 | a << 8 | k` and the like) are the
patterns of R83. -/

namespace Sys2Proof

theorem imm_zero : imm 0#8 = 0#16 := by decide

theorem imm_wordRR_low (b : RegNum) : imm (BitVec.ofFin (w := 3) b ++ 0#5) = at5 b := by
  revert b; decide

section

variable {m : CodeWord} {op : BitVec 5} (hm : m = op.zeroExtend 16 <<< 11)
include hm

theorem word_formula_RK (a : Fin 8) (k : Byte) : m ||| at8 a ||| imm k = wordRK op a k := by
  subst hm
  apply BitVec.eq_of_getLsbD_eq
  intro i hi
  rw [getLsbD_wordRK]
  have ha : a.val < 2 ^ 3 := a.isLt
  simp only [at8, imm, BitVec.getLsbD_or, BitVec.getLsbD_shiftLeft, BitVec.getLsbD_setWidth,
    BitVec.getLsbD_ofNat, BitVec.zeroExtend]
  by_cases h1 : i < 8
  · have h2 : i < 11 := by omega
    simp [h1, h2, hi]
  · by_cases h2 : i < 11
    · simp [h1, h2, hi, BitVec.getLsbD_of_ge k i (by omega)]; omega
    · have h3 : a.val.testBit (i - 8) = false :=
        Nat.testBit_lt_two_pow
          (lt_of_lt_of_le ha (Nat.pow_le_pow_right (by norm_num) (by omega)))
      simp [h1, h2, hi, h3, BitVec.getLsbD_of_ge k i (by omega)]; omega

theorem word_formula_RR (a b : RegNum) : m ||| at8 a ||| at5 b = wordRR op a b := by
  rw [wordRR, ← word_formula_RK hm, imm_wordRR_low]

theorem word_formula_R (a : Fin 8) : m ||| at8 a = wordR op a := by
  rw [wordR, ← word_formula_RK hm, imm_zero, BitVec.or_zero]

theorem word_formula_K (k : Byte) : m ||| imm k = wordK op k := by
  rw [wordK, ← word_formula_RK hm]; simp [at8]

end

end Sys2Proof
end

