-- ==== Sys2Proof/Tests/Slice0.lean ====
section
/-! SUPPORT. Tests. Expected words and values are from `spec/95_test_vectors.md` sections 2.1 to 2.8 or
worked out from the rules named; the witnesses at the end show that the hypotheses of the statements
can be met. -/

namespace Sys2Proof.Tests

open Sys2Proof Sys2Proof.Machine Sys2Proof.Claims

/-! ### Well-formedness: the one check, and a term it refuses, for each instruction that has it -/

theorem test_wellFormed_brbs : Instr.wellFormed (.brbs 4 0x20#8) = true ∧
    Instr.wellFormed (.brbs 5 0x20#8) = false := by decide

theorem test_wellFormed_brbc : Instr.wellFormed (.brbc 4 0x20#8) = true ∧
    Instr.wellFormed (.brbc 7 0x20#8) = false := by decide

theorem test_wellFormed_bclr : Instr.wellFormed (.bclr 0) = true ∧
    Instr.wellFormed (.bclr 6) = false := by decide

theorem test_wellFormed_bset : Instr.wellFormed (.bset 4) = true ∧
    Instr.wellFormed (.bset 5) = false := by decide

/-! ### Decoding: each constructor from a word written out bit by bit (section 2.1) -/

theorem test_decode_data_transfer :
    decode 0b0000101100101010#16 = .ok (.ldi 3 0x2A#8) ∧
    decode 0b0000111111111111#16 = .ok (.ldi 7 0xFF#8) ∧
    decode 0b0001000101000000#16 = .ok (.mov 1 2) ∧
    decode 0b0011000011100000#16 = .ok (.ld 0 7) ∧
    decode 0b0011100011100000#16 = .ok (.st 0 7) ∧
    decode 0b0100010110000000#16 = .ok (.lds 5 0x80#8) ∧
    decode 0b0100110110000000#16 = .ok (.sts 5 0x80#8) := by decide

theorem test_decode_arithmetic :
    decode 0b0001100101000000#16 = .ok (.add 1 2) ∧
    decode 0b0010010010000000#16 = .ok (.sub 4 4) ∧
    decode 0b0110100000100000#16 = .ok (.and 0 1) ∧
    decode 0b0111011011100000#16 = .ok (.or 6 7) ∧
    decode 0b0111101001000000#16 = .ok (.eor 2 2) ∧
    decode 0b1000001100000000#16 = .ok (.ror 3) ∧
    decode 0b1000101100000000#16 = .ok (.rol 3) := by decide

theorem test_decode_control :
    decode 0b0010100000000000#16 = .ok .stop ∧
    decode 0b0101000000010000#16 = .ok (.jmp 0x10#8) ∧
    decode 0b0101100100100000#16 = .ok (.brbs 1 0x20#8) ∧
    decode 0b0110010000000011#16 = .ok (.brbc 4 0x03#8) := by decide

theorem test_decode_status :
    decode 0b1001000000000000#16 = .ok (.bclr 0) ∧
    decode 0b1001110000000000#16 = .ok (.bset 4) := by decide

theorem test_decode_stack :
    decode 0b1010001000000000#16 = .ok (.push 2) ∧
    decode 0b1010101000000000#16 = .ok (.pop 2) ∧
    decode 0b1011000001000000#16 = .ok (.call 0x40#8) ∧
    decode 0b1011100000000000#16 = .ok .ret := by decide

theorem test_decode_faults :
    decode 0x0000#16 = .error .illegalInstruction ∧
    decode 0x07FF#16 = .error .illegalInstruction ∧
    decode 0xC000#16 = .error .illegalInstruction ∧
    decode 0xFFFF#16 = .error .illegalInstruction ∧
    decode 0xBFFF#16 = .error .reservedEncoding ∧
    decode 0x2801#16 = .error .reservedEncoding ∧
    decode 0x1141#16 = .error .reservedEncoding ∧
    decode 0x8301#16 = .error .reservedEncoding ∧
    decode 0x5110#16 = .error .reservedEncoding ∧
    decode 0x9D00#16 = .error (.reservedStatusBit 5) ∧
    decode 0x5F20#16 = .error (.reservedStatusBit 7) ∧
    decode 0x6520#16 = .error (.reservedStatusBit 5) ∧
    decode 0x9701#16 = .error .reservedEncoding := by decide

/-- Words of section 2.1 come from the encoder too. -/
theorem test_encode :
    encode (.ldi 3 0x2A#8) = 0x0B2A#16 ∧ encode (.st 0 7) = 0x38E0#16 ∧
    encode (.sts 5 0x80#8) = 0x4D80#16 ∧ encode (.brbc 4 0x03#8) = 0x6403#16 ∧
    encode (.bset 4) = 0x9C00#16 ∧ encode (.call 0x40#8) = 0xB040#16 ∧
    encode .ret = 0xB800#16 := by decide

theorem test_decodeTableWord :
    decodeTableWord 16 0x1140 = some (.mov 1 2) ∧ decodeTableWord 16 0x1141 = none := by decide

/-! ### One step on a small state -/

/-- The reset state with R0 = `x`, R1 = `y`, the flags SVNZC as five bits, `pc` and `sp`. -/
def machine (x y : Byte) (svnzc : BitVec 5) (pc sp : Byte) : State :=
  { State.reset with
    regs := #v[x, y, 0x00#8, 0x00#8, 0x00#8, 0x00#8, 0x00#8, 0x00#8]
    pc := pc
    sp := sp
    sreg := { s := svnzc.getLsbD 4, v := svnzc.getLsbD 3, n := svnzc.getLsbD 2,
              z := svnzc.getLsbD 1, c := svnzc.getLsbD 0 } }

/-- The state after one step on a word placed at `pc`, if there is one. -/
def after (w : CodeWord) (s : State) : Option State :=
  match step (s.placeAtPc w) with
  | .next t => some t
  | .fault _ => none
  | .refused _ => none

/-- R0 and the flags SVNZC, then `pc`. -/
def seen (s : State) : Byte × List Bool × Byte :=
  (s.reg 0, [s.sreg.s, s.sreg.v, s.sreg.n, s.sreg.z, s.sreg.c], s.pc)

/-- R0, then `sp` and `pc`. -/
def seenStack (s : State) : Byte × Byte × Byte := (s.reg 0, s.sp, s.pc)

theorem test_ldi_wraps_pc : (after 0x08FF#16 (machine 0x12#8 0x00#8 0b10101#5 0xFF#8 0xFF#8)).map seen =
    some (0xFF#8, [true, false, true, false, true], 0x0#8) := by decide

theorem test_mov_sets_no_flag : (after 0x1020#16 (machine 0x12#8 0x00#8 0b10101#5 0x10#8 0xFF#8)).map seen =
    some (0x00#8, [true, false, true, false, true], 0x11#8) := by decide

theorem test_add_carry_is_not_overflow : (after 0x1820#16 (machine 0xFF#8 0x01#8 0b11101#5 0x10#8 0xFF#8)).map seen =
    some (0x00#8, [false, false, false, true, true], 0x11#8) := by decide

theorem test_add_overflow : (after 0x1820#16 (machine 0x80#8 0xFF#8 0b00000#5 0x10#8 0xFF#8)).map seen =
    some (0x7F#8, [true, true, false, false, true], 0x11#8) := by decide

theorem test_sub_borrow : (after 0x2020#16 (machine 0x03#8 0x05#8 0b00000#5 0x10#8 0xFF#8)).map seen =
    some (0xFE#8, [true, false, true, false, true], 0x11#8) := by decide

theorem test_sub_overflow : (after 0x2020#16 (machine 0x7F#8 0xFF#8 0b00000#5 0x10#8 0xFF#8)).map seen =
    some (0x80#8, [false, true, true, false, true], 0x11#8) := by decide

theorem test_and_keeps_carry : (after 0x6820#16 (machine 0xFF#8 0x80#8 0b01001#5 0x10#8 0xFF#8)).map seen =
    some (0x80#8, [true, false, true, false, true], 0x11#8) := by decide

theorem test_or_zero : (after 0x7020#16 (machine 0x00#8 0x00#8 0b11100#5 0x10#8 0xFF#8)).map seen =
    some (0x00#8, [false, false, false, true, false], 0x11#8) := by decide

theorem test_eor_self_keeps_carry : (after 0x7800#16 (machine 0x90#8 0x00#8 0b00001#5 0x10#8 0xFF#8)).map seen =
    some (0x00#8, [false, false, false, true, true], 0x11#8) := by decide

theorem test_ror_into_carry : (after 0x8000#16 (machine 0x01#8 0x00#8 0b00000#5 0x10#8 0xFF#8)).map seen =
    some (0x00#8, [true, true, false, true, true], 0x11#8) := by decide

theorem test_ror_carry_in : (after 0x8000#16 (machine 0x00#8 0x00#8 0b00001#5 0x10#8 0xFF#8)).map seen =
    some (0x80#8, [false, true, true, false, false], 0x11#8) := by decide

theorem test_rol_into_carry : (after 0x8800#16 (machine 0x96#8 0x00#8 0b00001#5 0x10#8 0xFF#8)).map seen =
    some (0x2D#8, [true, true, false, false, true], 0x11#8) := by decide

theorem test_rol_zero : (after 0x8800#16 (machine 0x80#8 0x00#8 0b00000#5 0x10#8 0xFF#8)).map seen =
    some (0x00#8, [true, true, false, true, true], 0x11#8) := by decide

theorem test_bclr_does_not_recompute_s : (after 0x9300#16 (machine 0x00#8 0x00#8 0b11111#5 0x10#8 0xFF#8)).map seen =
    some (0x00#8, [true, false, true, true, true], 0x11#8) := by decide

theorem test_bset_does_not_recompute_s : (after 0x9B00#16 (machine 0x00#8 0x00#8 0b00100#5 0x10#8 0xFF#8)).map seen =
    some (0x00#8, [false, true, true, false, false], 0x11#8) := by decide

theorem test_jmp : (after 0x5010#16 (machine 0x00#8 0x00#8 0b00000#5 0x03#8 0xFF#8)).map (·.pc) =
    some 0x10#8 := by decide

theorem test_brbs_taken : (after 0x5C20#16 (machine 0x00#8 0x00#8 0b10000#5 0x05#8 0xFF#8)).map (·.pc) =
    some 0x20#8 := by decide

theorem test_brbs_not_taken : (after 0x5C20#16 (machine 0x00#8 0x00#8 0b01111#5 0x05#8 0xFF#8)).map (·.pc) =
    some 0x06#8 := by decide

theorem test_brbc_taken : (after 0x6420#16 (machine 0x00#8 0x00#8 0b01111#5 0x05#8 0xFF#8)).map (·.pc) =
    some 0x20#8 := by decide

theorem test_brbc_not_taken_wraps : (after 0x6020#16 (machine 0x00#8 0x00#8 0b00001#5 0xFF#8 0xFF#8)).map (·.pc) =
    some 0x00#8 := by decide

/-- STOP halts; no step follows. -/
theorem test_stop : (after 0x2800#16 (machine 0x01#8 0x02#8 0b10101#5 0x07#8 0xFE#8)).map
    (fun t => (t.halted, t.reg 0, t.sp)) = some (true, 0x01#8, 0xFE#8) := by decide

theorem test_st_cell : (after 0x3820#16 (machine 0x5A#8 0x41#8 0b00000#5 0x00#8 0xFF#8)).map
    (fun t => t.cell 0x41#8) = some 0x5A#8 := by decide

theorem test_ld_pointer_in_destination :
    (after 0x3000#16 ((machine 0x40#8 0x00#8 0b00000#5 0x00#8 0xFF#8).setCell 0x40#8 0x41#8)).map
      seenStack = some (0x41#8, 0xFF#8, 0x01#8) := by decide

theorem test_lds : (after 0x4080#16
    ((machine 0x00#8 0x00#8 0b00000#5 0x00#8 0xFF#8).setCell 0x80#8 0x07#8)).map
      seenStack = some (0x07#8, 0xFF#8, 0x01#8) := by decide

/-- Storing 0 into a cell takes its entry out of the list. -/
theorem test_sts_zero : (after 0x4880#16
    ((machine 0x00#8 0x00#8 0b00000#5 0x00#8 0xFF#8).setCell 0x80#8 0x07#8)).map
      (·.datamem) = some [] := by decide

theorem test_push_wraps : (after 0xA000#16 (machine 0x77#8 0x00#8 0b00000#5 0x00#8 0x00#8)).map
    (fun t => (t.cell 0x00#8, t.sp)) = some (0x77#8, 0xFF#8) := by decide

theorem test_pop_wraps : (after 0xA800#16
    ((machine 0x00#8 0x00#8 0b00000#5 0x00#8 0xFF#8).setCell 0x00#8 0x12#8)).map
      seenStack = some (0x12#8, 0x00#8, 0x01#8) := by decide

theorem test_call : (after 0xB040#16 (machine 0x00#8 0x00#8 0b00000#5 0x12#8 0xFF#8)).map
    (fun t => (t.cell 0xFF#8, t.pc, t.sp)) = some (0x13#8, 0x40#8, 0xFE#8) := by decide

/-- A CALL at 0xFF stores the return address 0x00. -/
theorem test_call_wraps : (after 0xB040#16
    ((machine 0x00#8 0x00#8 0b00000#5 0xFF#8 0xFF#8).setCell 0xFF#8 0x55#8)).map
      (fun t => (t.cell 0xFF#8, t.pc, t.sp)) = some (0x00#8, 0x40#8, 0xFE#8) := by decide

theorem test_ret : (after 0xB800#16
    ((machine 0x00#8 0x00#8 0b00000#5 0x45#8 0xFE#8).setCell 0xFF#8 0x13#8)).map
      seenStack = some (0x00#8, 0xFF#8, 0x13#8) := by decide

/-- The host's placement: the very next step from reset runs `LDI R3,0x2A`. -/
theorem test_withFetchWord :
    (match step (State.reset.withFetchWord 16 0x0B2A) with
      | .next t => some (t.reg 3, t.pc)
      | .fault _ => none
      | .refused _ => none) = some (0x2A#8, 0x01#8) := by decide

theorem test_reset_faults_without_program : step State.reset = .fault (.fetchOfUnwritten 0x00#8) :=
  rfl

/-- Section 1.2: the OP code of each ALU operation. -/
theorem test_alu_codes :
    [AluOp.add, .tra, .sub, .trb, .neg, .and, .or, .eor, .ror, .rol].map AluOp.code =
      [0#4, 1#4, 2#4, 3#4, 4#4, 5#4, 6#4, 7#4, 8#4, 9#4] := by decide

/-- Section 1.3: pseudo-instructions with one expansion have one word. -/
theorem test_pseudo_words :
    Pseudo.word (.brlo 0x07#8) = 0x5807#16 ∧ Pseudo.word (.brne 0x03#8) = 0x6103#16 ∧
    Pseudo.word (.brge 0x03#8) = 0x6403#16 ∧ Pseudo.word .clc = 0x9000#16 ∧
    Pseudo.word .ses = 0x9C00#16 := by decide

/-! ### Witnesses: the hypotheses of each statement that has any, met together -/

/-- A machine whose address 0x40 belongs to the platform, R1 = 0x40, sp one below it. -/
def platform : State :=
  { machine 0x11#8 0x40#8 0b00000#5 0x00#8 0x3F#8 with
    cfg := { Config.default with platformRegions := [0x40#8] } }

/-- The same with sp at the platform address. -/
def platformSp : State := platform.setSp 0x40#8

/-- An ordinary machine: R0 = 0x11, R1 = 0xFF = sp, at pc 0x12. -/
def plain : State := machine 0x11#8 0xFF#8 0b00001#5 0x12#8 0xFF#8

theorem witness_DecodeInvertsEncode : Instr.wellFormed (.bset 4) = true := by decide

theorem witness_AcceptedWordIsTheEncoding : decode 0xB040#16 = .ok (.call 0x40#8) := by decide

/-- Both clauses of `LoadOutcome`, at the platform address and one beside it. -/
theorem witness_loads :
    platform.reg 1 ∈ platform.cfg.platformRegions ∧ platform.reg 0 ∉ platform.cfg.platformRegions ∧
    platform.sp + 1 ∈ platform.cfg.platformRegions ∧
    platformSp.sp + 1 ∉ platformSp.cfg.platformRegions ∧
    0x3F#8 ∉ platform.cfg.platformRegions := by decide

/-- Both clauses of `StoreOutcome`, and its canonical data memory. -/
theorem witness_stores :
    platformSp.sp ∈ platformSp.cfg.platformRegions ∧ platform.sp ∉ platform.cfg.platformRegions ∧
    Memory.wf platform.datamem := by decide

/-- Both clauses of `BranchOutcome`, at the last flag and the first reserved number. -/
theorem witness_branches :
    (statusBits plain.sreg)[(4 : StatusNum).val]? = some false ∧
    (statusBits plain.sreg)[(0 : StatusNum).val]? = some true ∧
    (statusBits plain.sreg)[(5 : StatusNum).val]? = none := by decide

/-- Both clauses of `StatusOutcome`, at the last flag and the first reserved number. -/
theorem witness_status : (4 : StatusNum).val ≤ 4 ∧ 4 < (5 : StatusNum).val := by decide

theorem witness_LoadAfterStoreReturnsValue : Memory.wf plain.datamem ∧
    ∃ t u, exec (.sts 0 0x80#8) plain = .next t ∧ exec (.lds 3 0x80#8) t = .next u :=
  ⟨by decide, _, _, rfl, rfl⟩

theorem witness_AluInstructionsSetZeroNegativeSign :
    Instr.aluDest (.ror 0) = some 0 ∧ ∃ t, exec (.ror 0) plain = .next t := ⟨rfl, _, rfl⟩

theorem witness_OppositeRotatesRestore :
    (∃ t u, exec (.ror 0) plain = .next t ∧ exec (.rol 0) t = .next u) ∧
    (∃ t u, exec (.rol 0) plain = .next t ∧ exec (.ror 0) t = .next u) :=
  ⟨⟨_, _, rfl, rfl⟩, ⟨_, _, rfl, rfl⟩⟩

theorem witness_NineRotatesRestore : ∃ i : Instr, i = .ror 3 ∨ i = .rol 3 := ⟨.rol 3, .inr rfl⟩

theorem witness_InstructionsUseTheirAluRow :
    ((Instr.rol 0, AluOp.rol) ∈ [(Instr.add 0 1, AluOp.add), (.sub 0 1, .sub), (.and 0 1, .and),
      (.or 0 1, .or), (.eor 0 1, .eor), (.ror 0, .ror), (.rol 0, .rol)]) ∧
    ∃ t, exec (.rol 0) plain = .next t := ⟨by decide, _, rfl⟩

theorem witness_BranchesAfterSubCompare : ∃ t, exec (.sub 0 1) plain = .next t := ⟨_, rfl⟩

theorem witness_PushThenPopRestores : Memory.wf plain.datamem ∧
    ∃ t u, exec (.push 0) plain = .next t ∧ exec (.pop 0) t = .next u :=
  ⟨by decide, _, _, rfl, rfl⟩

/-- `CALL 0x40` at 0x12 and `RET` at 0x40. -/
def callAndRet : State := (plain.placeWord 0x12#8 0xB040#16).placeWord 0x40#8 0xB800#16

/-- `STOP` at 0x12. -/
def stopAt12 : State := plain.placeWord 0x12#8 0x2800#16

theorem witness_CallThenRetReturns : Memory.wf callAndRet.datamem ∧
    Fetches callAndRet (.call 0x40#8) ∧ ∃ t u, step callAndRet = .next t ∧ Fetches t .ret ∧
      step t = .next u :=
  ⟨by decide, ⟨0xB040#16, by decide, by decide⟩, _, _, rfl, ⟨0xB800#16, rfl, by decide⟩, rfl⟩

theorem witness_RetFollowsOverwrittenCell : Memory.wf plain.datamem ∧ plain.reg 1 = plain.sp ∧
    ∃ t u v, exec (.call 0x40#8) plain = .next t ∧ exec (.st 0 1) t = .next u ∧
      exec .ret u = .next v := ⟨by decide, by decide, _, _, _, rfl, rfl, rfl⟩

theorem witness_PushesWalkStackPointer : plain.cfg.platformRegions = [] := rfl

/-- Each clause of the instruction cycle: halted, no word, a word that does not decode, an instruction. -/
theorem witness_StepRunsTheDecodedInstruction :
    plain.halt.halted = true ∧ plain.halted = false ∧ plain.codeWord plain.pc = none ∧
    (plain.placeAtPc 0x0000#16).codeWord 0x12#8 = some 0x0000#16 ∧
    decode 0x0000#16 = .error .illegalInstruction ∧
    callAndRet.codeWord callAndRet.pc = some 0xB040#16 ∧ decode 0xB040#16 = .ok (.call 0x40#8) := by
  decide

theorem witness_InstructionsCompleteOffPlatform : Instr.wellFormed (.ld 0 0) = true ∧
    ∀ x, Instr.dataAddress (.ld 0 0) platform = some x → x ∉ platform.cfg.platformRegions := by
  refine ⟨rfl, fun x hx => ?_⟩
  have : x = 0x11#8 := (Option.some.inj hx).symm
  subst this; decide

theorem witness_ProgramCounterAfterEachStep : Fetches callAndRet (.call 0x40#8) ∧
    Instr.call 0x40#8 ≠ .stop ∧ ∃ t, step callAndRet = .next t :=
  ⟨⟨0xB040#16, by decide, by decide⟩, by decide, _, rfl⟩

theorem witness_StackPointerAfterEachStep : Fetches callAndRet (.call 0x40#8) ∧
    ∃ t, step callAndRet = .next t := ⟨⟨0xB040#16, by decide, by decide⟩, _, rfl⟩

theorem witness_OnlyDestinationRegisterWritten : Instr.dest (.add 0 1) ≠ some 1 ∧
    ∃ t, exec (.add 0 1) plain = .next t := ⟨by decide, _, rfl⟩

theorem witness_UnmarkedFlagsKeepTheirValue : Instr.writesFlag (.and 0 1) .c = false ∧
    ∃ t, exec (.and 0 1) plain = .next t := ⟨rfl, _, rfl⟩

theorem witness_UnreadFlagsDoNotInfluence : Instr.readsFlag (.ror 0) .v = false ∧
    ∃ t, exec (.ror 0) plain = .next t := ⟨rfl, _, rfl⟩

/-- Both clauses: a cell not stored to, and the cell stored to. -/
theorem witness_OnlyStoredCellWritten : Memory.wf plain.datamem ∧
    (∃ t, exec (.push 0) plain = .next t) ∧
    Instr.storeAddress (.push 0) plain ≠ some 0xFE#8 ∧
    Instr.storeAddress (.push 0) plain = some 0xFF#8 := ⟨by decide, ⟨_, rfl⟩, by decide, rfl⟩

theorem witness_OnlyStopHalts : ∃ t, step stopAt12 = .next t := ⟨_, rfl⟩

theorem witness_StepKeepsMemoriesCanonical : callAndRet.Inv ∧ ∃ t, step callAndRet = .next t :=
  ⟨by decide, _, rfl⟩

theorem witness_LaunchMemoriesCanonical :
    Memory.wf [(0x20, 0xDE#8), (0x21, 0xAD#8)] ∧ Code.wf [(0x00, 0x0800#16), (0x01, 0x2800#16)] := by
  decide

theorem witness_CodeMemoryConstantAlongRuns : ∃ t : State, core.run 2 callAndRet = .next t :=
  ⟨_, run_succ_next.2 ⟨_, rfl, run_succ_next.2 ⟨_, rfl, run_zero_next.2 rfl⟩⟩⟩

theorem witness_RunsHaltOnlyByStop : stopAt12.halted = false ∧
    ∃ t : State, core.run 1 stopAt12 = .next t ∧ t.halted = true :=
  ⟨rfl, _, run_succ_next.2 ⟨_, rfl, run_zero_next.2 rfl⟩, rfl⟩

theorem witness_RunHasOneFinalState : ∃ t, RunEnds stopAt12 t :=
  ⟨_, 1, run_succ_next.2 ⟨_, rfl, run_zero_next.2 rfl⟩, rfl⟩

/-- `JMP 0x00` at every code address. -/
def everywhereJmp : State :=
  { State.reset with codemem := (List.range 256).map fun p => (p, 0x5000#16) }

theorem lookup_map_range' (w : CodeWord) (p : Nat) : ∀ n a : Nat, a ≤ p → p < a + n →
    Memory.lookup ((List.range' a n).map fun q => (q, w)) p = some w := by
  intro n
  induction n with
  | zero => intro a h1 h2; omega
  | succ n ih =>
    intro a h1 h2
    by_cases h : p = a
    · simp [List.range'_succ, Memory.lookup, h]
    · simp [List.range'_succ, Memory.lookup, h, ih (a + 1) (by omega) (by omega)]

theorem witness_DecodableProgramsAreSafe : everywhereJmp.cfg.platformRegions = [] ∧
    ∀ p, ∃ w i, everywhereJmp.codeWord p = some w ∧ decode w = .ok i := by
  refine ⟨rfl, fun p => ⟨0x5000#16, .jmp 0x00#8, ?_, by decide⟩⟩
  have h := lookup_map_range' 0x5000#16 p.toNat 256 0 (Nat.zero_le _) (by have := p.isLt; omega)
  rw [← List.range_eq_range'] at h
  exact h

theorem witness_ResetEventStartsAtResetVector :
    ∃ s : State, s = State.launch Config.default (Vector.replicate 8 0xA5#8) plain.sreg
      [(0x20, 0xDE#8)] [(0x00, 0x0B2A#16)] ∧
      s.codeWord Config.default.pcReset = some 0x0B2A#16 ∧
      decode 0x0B2A#16 = .ok (.ldi 3 0x2A#8) := ⟨_, rfl, by decide, by decide⟩

end Sys2Proof.Tests
end

section
/-! PROOFS. Statements of `00_scope.md`: the instruction cycle of R9 and the refusal of a halted
machine, from the three answers of `step`. -/

namespace Sys2Proof.Machine

variable {s : State}

/-- R9, log 10: a halted machine has no step. -/
theorem step_of_halted (hh : s.halted = true) : step s = .refused .halted := by
  simp [step, hh]

/-- Beside `step_of_fetch`: a failed fetch ends the step before any instruction runs. -/
theorem step_of_fetch_error {f : Fault} (hh : s.halted = false) (hf : s.fetch = .error f) :
    step s = .fault f := by
  simp [step, hh, hf]

end Sys2Proof.Machine

namespace Sys2Proof

open Sys2Proof.Machine

/-- Settles O41: a machine that is not halted answers its fetch's fault or runs an instruction, and no
instruction is refused. -/
theorem stepRefusedExactlyWhenHalted : Obligations.StepRefusedExactlyWhenHalted := by
  intro s r
  cases hh : s.halted with
  | true => simp [step_of_halted hh, eq_comm]
  | false =>
    cases hf : s.fetch with
    | error f => simp [step_of_fetch_error hh hf]
    | ok i => simp [step_of_fetch hh hf, exec_ne_refused]

/-- Settles O39: each premise on the word at `pc` fixes what the fetch answers, and so the step. -/
theorem stepRunsTheDecodedInstruction : Obligations.StepRunsTheDecodedInstruction := by
  intro s
  constructor
  · intro hh u
    simp [step_of_halted hh]
  · intro hh
    refine ⟨fun hnone => ?_, fun w hw => ⟨fun e he => ?_, fun i hi => ?_⟩⟩
    · exact step_of_fetch_error hh (State.fetch_error_iff.2 (.inl ⟨hnone, rfl⟩))
    · exact step_of_fetch_error hh (State.fetch_error_iff.2 (.inr ⟨w, e, hw, he, rfl⟩))
    · exact step_of_fetch hh (State.fetch_ok_iff.2 ⟨w, hw, hi⟩)

end Sys2Proof
end

section
/-! PROOFS. Statements of `10_state.md`: what each instruction and each step does to the registers,
the flags, `pc`, `sp` and the halted bit. The case splits follow the shared operation an instruction
is made of (`readThen`, `writeThen`, `pushThen`, `popThen`, `withFlag`, or none). -/

namespace Sys2Proof.Machine

open Sys2Proof.Claims

/-! ### The status register by bit number -/

theorem Flag.ofNum?_eq_some_iff {sb : StatusNum} {f : Flag} :
    Flag.ofNum? sb = some f ↔ sb.val = flagNumber f := by
  cases f <;> revert sb <;> decide

/-- The number `sb` is a flag's own exactly when `sb` names that flag. -/
theorem Flag.val_eq_flagNumber_iff {sb : StatusNum} {f g : Flag} (hg : Flag.ofNum? sb = some g) :
    sb.val = flagNumber f ↔ f = g := by
  rw [← Flag.ofNum?_eq_some_iff, hg, Option.some.injEq, eq_comm]

theorem statusBits_getElem? {sb : StatusNum} {f : Flag} (hf : Flag.ofNum? sb = some f) (r : SReg) :
    (statusBits r)[sb.val]? = some (r.get f) := by
  rw [Flag.ofNum?_eq_some_iff.1 hf]
  cases f <;> rfl

@[simp] theorem SReg.set_set_same (r : SReg) (f : Flag) (b c : Bool) :
    (r.set f b).set f c = r.set f c := by
  cases f <;> rfl

theorem SReg.set_comm (r : SReg) {f g : Flag} (b c : Bool) (h : f ≠ g) :
    (r.set f b).set g c = (r.set g c).set f b := by
  refine SReg.ext_get fun e => ?_
  by_cases hf : e = f
  · subst hf; simp [SReg.get_set_ne, h]
  · by_cases hg : e = g
    · subst hg; simp [SReg.get_set_ne, hf]
    · simp [SReg.get_set_ne, hf, hg]

theorem State.setSreg_setSreg (s : State) (p q : SReg) :
    (s.setSreg p).setSreg q = s.setSreg q := rfl

theorem State.branchIf_setSreg (s : State) (q : SReg) (taken : Bool) (k : Byte) :
    (s.setSreg q).branchIf taken k = (s.branchIf taken k).setSreg q := by
  cases taken <;> rfl

/-! ### What an instruction does to one part of the state -/

variable {i : Instr} {s t : State}

/-- An ALU instruction runs a flag-writing operation on its destination (R141, R142). -/
theorem exec_next_alu {a : RegNum} (ha : i.aluDest = some a) (h : exec i s = .next t) :
    ∃ op x y, (op ≠ .tra ∧ op ≠ .trb) ∧ t = s.alu op a x y := by
  cases i with
  | add | sub | and | or | eor | ror | rol =>
    cases ha; cases h; exact ⟨_, _, _, by decide, rfl⟩
  | _ => cases ha

/-- What an instruction can do to the registers: nothing, or its destination written (R22). -/
theorem exec_next_regs (h : exec i s = .next t) :
    (i.dest = none ∧ t.regs = s.regs) ∨
      ∃ a v, i.dest = some a ∧ t.regs = (s.setReg a v).regs := by
  cases i with
  | ldi | mov | add | sub | and | or | eor | ror | rol =>
    cases h; exact .inr ⟨_, _, rfl, rfl⟩
  | ld | lds => obtain ⟨-, rfl⟩ := readThen_next_iff.1 h; exact .inr ⟨_, _, rfl, rfl⟩
  | pop => obtain ⟨-, rfl⟩ := exec_pop_next.1 h; exact .inr ⟨_, _, rfl, rfl⟩
  | stop | jmp => cases h; exact .inl ⟨rfl, rfl⟩
  | st | sts => obtain ⟨-, rfl⟩ := writeThen_next_iff.1 h; exact .inl ⟨rfl, rfl⟩
  | push => obtain ⟨-, rfl⟩ := exec_push_next.1 h; exact .inl ⟨rfl, rfl⟩
  | call => obtain ⟨-, rfl⟩ := exec_call_next.1 h; exact .inl ⟨rfl, rfl⟩
  | ret => obtain ⟨-, rfl⟩ := exec_ret_next.1 h; exact .inl ⟨rfl, rfl⟩
  | bclr | bset => obtain ⟨f, -, rfl⟩ := withFlag_next_iff.1 h; exact .inl ⟨rfl, rfl⟩
  | brbs | brbc =>
    obtain ⟨f, -, rfl⟩ := withFlag_next_iff.1 h; exact .inl ⟨rfl, State.branchIf_regs ..⟩

/-- What an instruction does to `sp` (R25). -/
theorem exec_next_sp (h : exec i s = .next t) : t.sp.toNat = spAfter i s.sp.toNat := by
  have down : (s.sp - 1).toNat = (s.sp.toNat + 255) % 256 := by bv_omega
  have up : (s.sp + 1).toNat = (s.sp.toNat + 1) % 256 := BitVec.toNat_add ..
  cases i with
  | push => obtain ⟨-, rfl⟩ := exec_push_next.1 h; exact down
  | call => obtain ⟨-, rfl⟩ := exec_call_next.1 h; exact down
  | pop => obtain ⟨-, rfl⟩ := exec_pop_next.1 h; exact up
  | ret => obtain ⟨-, rfl⟩ := exec_ret_next.1 h; exact up
  | ldi | mov | add | sub | and | or | eor | ror | rol | stop | jmp => cases h; rfl
  | ld | lds => obtain ⟨-, rfl⟩ := readThen_next_iff.1 h; rfl
  | st | sts => obtain ⟨-, rfl⟩ := writeThen_next_iff.1 h; rfl
  | bclr | bset => obtain ⟨f, -, rfl⟩ := withFlag_next_iff.1 h; rfl
  | brbs | brbc => obtain ⟨f, -, rfl⟩ := withFlag_next_iff.1 h; simp [spAfter]

/-! ### The step of a fetched instruction -/

/-- A step that answers a next state executed the one instruction that is fetched. -/
theorem exec_of_fetches (hf : Fetches s i) (h : step s = .next t) :
    exec i s.advance = .next t := by
  rw [← h, step_of_fetch (step_next_inv h).1 (State.fetch_ok_iff.2 hf)]

end Sys2Proof.Machine

namespace Sys2Proof

open Sys2Proof.Machine Sys2Proof.Claims

/-- Settles O17: each of the seven runs a row of the ALU that writes Z, N and S from its result. -/
theorem aluInstructionsSetZeroNegativeSign : Obligations.AluInstructionsSetZeroNegativeSign := by
  intro i a s t ha h
  obtain ⟨op, x, y, hop, rfl⟩ := exec_next_alu ha h
  obtain ⟨hz, hn, hs⟩ := aluFlags_common hop x y s.sreg
  rw [State.alu_sreg, State.alu_reg_same]
  exact ⟨by simp [hz], by rw [hn, msb_eq_bit7], hs⟩

/-- Settles O43: `pc` was advanced before the instruction ran, and only a jump, a taken branch, CALL and
RET write it again. -/
theorem programCounterAfterEachStep : Obligations.ProgramCounterAfterEachStep := by
  intro i s t hf hstop hstep
  have h := exec_of_fetches hf hstep
  have hnext : s.advance.pc.toNat = (s.pc.toNat + 1) % 256 := BitVec.toNat_add ..
  cases i with
  | stop => exact absurd rfl hstop
  | jmp => cases h; rfl
  | brbs | brbc =>
    obtain ⟨f, hsb, rfl⟩ := withFlag_next_iff.1 h
    cases hbit : s.sreg.get f <;> simp [pcAfter, statusBits_getElem? hsb, hbit]
  | call => obtain ⟨-, rfl⟩ := exec_call_next.1 h; rfl
  | ret => obtain ⟨-, rfl⟩ := exec_ret_next.1 h; rfl
  | ldi | mov | add | sub | and | or | eor | ror | rol => cases h; exact hnext
  | ld | lds => obtain ⟨-, rfl⟩ := readThen_next_iff.1 h; exact hnext
  | st | sts => obtain ⟨-, rfl⟩ := writeThen_next_iff.1 h; exact hnext
  | bclr | bset => obtain ⟨f, -, rfl⟩ := withFlag_next_iff.1 h; exact hnext
  | push => obtain ⟨-, rfl⟩ := exec_push_next.1 h; exact hnext
  | pop => obtain ⟨-, rfl⟩ := exec_pop_next.1 h; exact hnext

/-- Settles O44: the advance before the instruction leaves `sp` alone. -/
theorem stackPointerAfterEachStep : Obligations.StackPointerAfterEachStep :=
  fun _ s _ hf hstep => exec_next_sp (s := s.advance) (exec_of_fetches hf hstep)

/-- Settles O45: a register written is the destination. -/
theorem onlyDestinationRegisterWritten : Obligations.OnlyDestinationRegisterWritten := by
  intro i s t r h hr
  obtain ⟨-, hregs⟩ | ⟨a, v, ha, hregs⟩ := exec_next_regs h
  · rw [State.reg, hregs, State.reg]
  · have hra : r ≠ a := fun e => hr (e ▸ ha)
    rw [State.reg, hregs]
    exact State.reg_setReg_ne s v hra

/-- Settles O46: a logic instruction keeps C, BCLR and BSET keep all flags but the one they name, and
the instructions that are not in the table write no flag. -/
theorem unmarkedFlagsKeepTheirValue : Obligations.UnmarkedFlagsKeepTheirValue := by
  intro i s t f h hw
  cases i with
  | add | sub | ror | rol => cases hw
  | and | or | eor =>
    obtain rfl : f = .c := by simpa [Instr.writesFlag] using hw
    cases h; rfl
  | bclr | bset =>
    obtain ⟨g, hg, rfl⟩ := withFlag_next_iff.1 h
    have hfg : f ≠ g := by simpa [Instr.writesFlag, Flag.val_eq_flagNumber_iff hg] using hw
    exact SReg.get_set_ne _ _ hfg
  | brbs | brbc => obtain ⟨g, -, rfl⟩ := withFlag_next_iff.1 h; rw [State.branchIf_sreg]
  | ldi | mov | stop | jmp => cases h; rfl
  | ld | lds => obtain ⟨-, rfl⟩ := readThen_next_iff.1 h; rfl
  | st | sts => obtain ⟨-, rfl⟩ := writeThen_next_iff.1 h; rfl
  | push => obtain ⟨-, rfl⟩ := exec_push_next.1 h; rfl
  | pop => obtain ⟨-, rfl⟩ := exec_pop_next.1 h; rfl
  | call => obtain ⟨-, rfl⟩ := exec_call_next.1 h; rfl
  | ret => obtain ⟨-, rfl⟩ := exec_ret_next.1 h; rfl

/-- Settles O47: only the ALU's input C and the bit a branch tests come from the flags, and writing one
flag commutes with every other update, but for BCLR and BSET of the same flag, which overwrite it. -/
theorem unreadFlagsDoNotInfluence : Obligations.UnreadFlagsDoNotInfluence := by
  intro i s t f b hr h
  cases i with
  | add | sub => cases h; rfl
  | and | or | eor => cases h; cases f <;> rfl
  | ror | rol =>
    have hc : f ≠ .c := by simpa [Instr.readsFlag] using hr
    cases h
    cases f with
    | c => exact absurd rfl hc
    | z | n | v | s => rfl
  | bclr | bset =>
    obtain ⟨g, hg, rfl⟩ := withFlag_next_iff.1 h
    refine withFlag_next_iff.2 ⟨g, hg, ?_⟩
    by_cases hfg : f = g
    · simp [Instr.writesFlag, Flag.val_eq_flagNumber_iff hg, State.setSreg_setSreg, hfg]
    · simp [Instr.writesFlag, Flag.val_eq_flagNumber_iff hg, State.setSreg_setSreg, hfg,
        SReg.set_comm _ b _ hfg]
  | brbs | brbc =>
    obtain ⟨g, hg, rfl⟩ := withFlag_next_iff.1 h
    refine withFlag_next_iff.2 ⟨g, hg, ?_⟩
    have hfg : f ≠ g := by simpa [Instr.readsFlag, Flag.val_eq_flagNumber_iff hg] using hr
    simp [Instr.writesFlag, SReg.get_set_ne _ _ hfg.symm, State.branchIf_setSreg]
  | ldi | mov | stop | jmp => cases h; rfl
  | ld | lds => obtain ⟨hp, rfl⟩ := readThen_next_iff.1 h; exact readThen_next_iff.2 ⟨hp, rfl⟩
  | st | sts => obtain ⟨hp, rfl⟩ := writeThen_next_iff.1 h; exact writeThen_next_iff.2 ⟨hp, rfl⟩
  | push => obtain ⟨hp, rfl⟩ := exec_push_next.1 h; exact exec_push_next.2 ⟨hp, rfl⟩
  | pop => obtain ⟨hp, rfl⟩ := exec_pop_next.1 h; exact exec_pop_next.2 ⟨hp, rfl⟩
  | call => obtain ⟨hp, rfl⟩ := exec_call_next.1 h; exact exec_call_next.2 ⟨hp, rfl⟩
  | ret => obtain ⟨hp, rfl⟩ := exec_ret_next.1 h; exact exec_ret_next.2 ⟨hp, rfl⟩

/-- Settles O49: a step starts not halted and runs the one instruction it fetches, and only STOP sets
the halted bit. -/
theorem onlyStopHalts : Obligations.OnlyStopHalts := by
  intro s t hstep
  obtain ⟨hrun, i, hfetch, h⟩ := step_next_inv hstep
  have hstop : Fetches s .stop ↔ i = .stop := by
    rw [Fetches, ← State.fetch_ok_iff, hfetch]; simp
  rw [hstop]
  obtain ⟨hi, ht⟩ | ⟨hi, ht⟩ := exec_next_halted h
  · simp [hi, ht]
  · simp [hi, ht, hrun]

end Sys2Proof
end

section
/-! PROOFS. Statements of `20_memory.md`: the one data cell that an instruction can write, what a load
finds after a store, and the two memories along steps and runs. -/

namespace Sys2Proof.Machine

variable {i : Instr} {s t : State}

/-! ### One data cell -/

/-- A read sees nothing of a state but its data memory. -/
theorem State.cell_congr (h : t.datamem = s.datamem) (x : Byte) : t.cell x = s.cell x :=
  congrArg (Memory.read · x.toNat) h

theorem State.cell_setCell_same (h : Memory.wf s.datamem) (a v : Byte) :
    (s.setCell a v).cell a = v := by
  rw [State.cell_setCell h, if_pos rfl]

theorem State.cell_setCell_ne (h : Memory.wf s.datamem) {a b : Byte} (v : Byte) (hb : b ≠ a) :
    (s.setCell a v).cell b = s.cell b := by
  rw [State.cell_setCell h, if_neg hb]

theorem State.wf_setCell (h : Memory.wf s.datamem) (a v : Byte) :
    Memory.wf (s.setCell a v).datamem :=
  Memory.wf_write h a.isLt v

/-! ### What an instruction does to the two memories -/

/-- What an instruction does to data memory: nothing, or the cell of the access table written with the
table's value (R55). -/
theorem exec_next_store (h : exec i s = .next t) :
    (i.storeAddress s = none ∧ t.datamem = s.datamem) ∨
      ∃ x v, i.storeAddress s = some x ∧ i.storeValue s = some v ∧
        t.datamem = (s.setCell x v).datamem := by
  cases i with
  | st | sts => obtain ⟨-, rfl⟩ := writeThen_next_iff.1 h; exact .inr ⟨_, _, rfl, rfl, rfl⟩
  | push => obtain ⟨-, rfl⟩ := exec_push_next.1 h; exact .inr ⟨_, _, rfl, rfl, rfl⟩
  | call => obtain ⟨-, rfl⟩ := exec_call_next.1 h; exact .inr ⟨_, _, rfl, rfl, rfl⟩
  | ldi | mov | add | sub | and | or | eor | ror | rol | stop | jmp =>
    cases h; exact .inl ⟨rfl, rfl⟩
  | ld | lds => obtain ⟨-, rfl⟩ := readThen_next_iff.1 h; exact .inl ⟨rfl, rfl⟩
  | pop => obtain ⟨-, rfl⟩ := exec_pop_next.1 h; exact .inl ⟨rfl, rfl⟩
  | ret => obtain ⟨-, rfl⟩ := exec_ret_next.1 h; exact .inl ⟨rfl, rfl⟩
  | bclr | bset => obtain ⟨f, -, rfl⟩ := withFlag_next_iff.1 h; exact .inl ⟨rfl, rfl⟩
  | brbs | brbc =>
    obtain ⟨f, -, rfl⟩ := withFlag_next_iff.1 h; exact .inl ⟨rfl, State.branchIf_datamem ..⟩

theorem exec_keeps_inv (hs : s.Inv) (h : exec i s = .next t) : t.Inv := by
  obtain ⟨hcode, -⟩ := exec_next_fixed h
  obtain hdata | ⟨x, v, hdata⟩ := exec_next_datamem h
  · exact State.inv_of_memories hs hdata hcode
  · exact State.inv_of_memories (State.inv_setCell hs x v) hdata hcode

theorem step_next_codemem (h : step s = .next t) : t.codemem = s.codemem := by
  obtain ⟨-, i, -, hexec⟩ := step_next_inv h
  exact (exec_next_fixed hexec).1

end Sys2Proof.Machine

namespace Sys2Proof

open Sys2Proof.Machine Sys2Proof.Claims

/-- Settles O50: a step advances `pc`, which is in neither memory, and runs one instruction, which
writes at most one data cell, in the canonical way. -/
theorem stepKeepsMemoriesCanonical : Obligations.StepKeepsMemoriesCanonical := by
  intro s t hs hstep
  obtain ⟨-, i, -, h⟩ := step_next_inv hstep
  have hadvance : s.advance.Inv := State.inv_of_memories hs rfl rfl
  exact exec_keeps_inv hadvance h

/-- Settles O52: that code memory is the one at the start is kept by every step, so it holds wherever
the run is. -/
theorem codeMemoryConstantAlongRuns : Obligations.CodeMemoryConstantAlongRuns := by
  intro n s t hrun p
  have hcode : t.codemem = s.codemem :=
    run_induction (P := fun u => u.codemem = s.codemem)
      (fun _ _ hu hstep => (step_next_codemem hstep).trans hu) rfl hrun
  rw [State.codeWord, hcode, State.codeWord]

/-- Settles O11: both instructions name the cell `k`. -/
theorem loadAfterStoreReturnsValue : Obligations.LoadAfterStoreReturnsValue := by
  intro a c k s t u hwf hsts hlds
  obtain ⟨-, rfl⟩ := exec_sts_next.1 hsts
  obtain ⟨-, rfl⟩ := exec_lds_next.1 hlds
  rw [State.reg_setReg_same, State.cell_setCell_same hwf]

/-- Settles O37: the RET reads at `sp - 1 + 1`, the cell that the CALL and then the ST stored to, and the CALL
left `x[a]` and `x[b]` as they were. -/
theorem retFollowsOverwrittenCell : Obligations.RetFollowsOverwrittenCell := by
  intro k a b s t u v hwf hb hcall hst hret
  obtain ⟨-, ht⟩ := exec_call_next.1 hcall
  obtain ⟨-, hu⟩ := exec_st_next.1 hst
  obtain ⟨-, hv⟩ := exec_ret_next.1 hret
  have hwft : Memory.wf t.datamem := ht ▸ State.wf_setCell hwf s.sp s.pc
  have hpop : u.sp + 1 = t.reg b := by simp [hu, ht, hb]
  calc v.pc = u.cell (u.sp + 1) := by rw [hv, State.setPc_pc]
    _ = t.reg a := by rw [hpop, hu, State.cell_setCell_same hwft]
    _ = s.reg a := by simp [ht]

/-- Settles O48: an instruction that stores writes the one cell of the table, and the others write
none. -/
theorem onlyStoredCellWritten : Obligations.OnlyStoredCellWritten := by
  intro i s t x hwf h
  obtain ⟨hnone, hdata⟩ | ⟨y, v, haddr, hval, hdata⟩ := exec_next_store h
  · simp [hnone, State.cell_congr hdata]
  · have hcell : t.cell x = (s.setCell y v).cell x := State.cell_congr hdata x
    rw [haddr, hval, hcell]
    constructor
    · intro hx
      exact State.cell_setCell_ne hwf v fun e => hx (e ▸ rfl)
    · rintro ⟨⟩
      rw [State.cell_setCell_same hwf]

end Sys2Proof
end

section
/-! PROOFS. Statements of `30_encoding.md`. An instruction's word is its format's pattern (R83) filled
with the word's own fields; what a word holds beside the pattern is in the format's must-be-zero
bits. -/

namespace Sys2Proof

open Sys2Proof.Claims

/-- An instruction's own word passes the first three steps of R84. -/
theorem encode_selects (i : Instr) :
    selectInstr (encode i) = some i ∧ zeroBitsOk i (encode i) = true := by
  cases i with
  | ldi => exact ⟨Laws.SelectsItself.ldi .., Laws.ZeroBits.ldi ..⟩
  | mov => exact ⟨Laws.SelectsItself.mov .., Laws.ZeroBits.mov ..⟩
  | add => exact ⟨Laws.SelectsItself.add .., Laws.ZeroBits.add ..⟩
  | sub => exact ⟨Laws.SelectsItself.sub .., Laws.ZeroBits.sub ..⟩
  | stop => exact ⟨Laws.SelectsItself.stop, Laws.ZeroBits.stop⟩
  | ld => exact ⟨Laws.SelectsItself.ld .., Laws.ZeroBits.ld ..⟩
  | st => exact ⟨Laws.SelectsItself.st .., Laws.ZeroBits.st ..⟩
  | lds => exact ⟨Laws.SelectsItself.lds .., Laws.ZeroBits.lds ..⟩
  | sts => exact ⟨Laws.SelectsItself.sts .., Laws.ZeroBits.sts ..⟩
  | jmp => exact ⟨Laws.SelectsItself.jmp .., Laws.ZeroBits.jmp ..⟩
  | brbs => exact ⟨Laws.SelectsItself.brbs .., Laws.ZeroBits.brbs ..⟩
  | brbc => exact ⟨Laws.SelectsItself.brbc .., Laws.ZeroBits.brbc ..⟩
  | and => exact ⟨Laws.SelectsItself.and .., Laws.ZeroBits.and ..⟩
  | or => exact ⟨Laws.SelectsItself.or .., Laws.ZeroBits.or ..⟩
  | eor => exact ⟨Laws.SelectsItself.eor .., Laws.ZeroBits.eor ..⟩
  | ror => exact ⟨Laws.SelectsItself.ror .., Laws.ZeroBits.ror ..⟩
  | rol => exact ⟨Laws.SelectsItself.rol .., Laws.ZeroBits.rol ..⟩
  | bclr => exact ⟨Laws.SelectsItself.bclr .., Laws.ZeroBits.bclr ..⟩
  | bset => exact ⟨Laws.SelectsItself.bset .., Laws.ZeroBits.bset ..⟩
  | push => exact ⟨Laws.SelectsItself.push .., Laws.ZeroBits.push ..⟩
  | pop => exact ⟨Laws.SelectsItself.pop .., Laws.ZeroBits.pop ..⟩
  | call => exact ⟨Laws.SelectsItself.call .., Laws.ZeroBits.call ..⟩
  | ret => exact ⟨Laws.SelectsItself.ret, Laws.ZeroBits.ret⟩

/-! ### A word against the pattern of a format (R83) -/

/-- The pattern of a format, filled with the fields of `w`. -/
def Format.fill (w : CodeWord) : Format → CodeWord
  | .RK | .SK => wordRK (fieldOp w) (fieldA w) (fieldK w)
  | .RR => wordRR (fieldOp w) (fieldA w) (fieldB w)
  | .R | .S => wordR (fieldOp w) (fieldA w)
  | .K => wordK (fieldOp w) (fieldK w)
  | .N => wordN (fieldOp w)

/-- The must-be-zero bits of a format: the bits it fixes beside the op code (R97). -/
def Format.zeroBits (f : Format) : CodeWord := f.mask &&& 0x07FF#16

variable {w : CodeWord} {i : Instr}

@[simp] theorem fieldOp_fill (f : Format) : fieldOp (f.fill w) = fieldOp w := by
  cases f <;> simp [Format.fill]

theorem zeroBitsOk_iff_zeroBits : zeroBitsOk i w = true ↔ w &&& i.format.zeroBits = 0#16 :=
  zeroBitsOk_iff_low w (by cases i.format <;> decide) (by cases i.format <;> decide)

/-- A word with 0 under a mask has 0 under each slice of the mask. -/
theorem extract_and_eq_zero {m : CodeWord} (h : w &&& m = 0#16) (start len : Nat) :
    w.extractLsb' start len &&& m.extractLsb' start len = 0#len := by
  rw [← BitVec.extractLsb'_and, h, BitVec.extractLsb'_zero]

theorem fieldA_eq_zero (h : w.extractLsb' 8 3 &&& BitVec.allOnes 3 = 0#3) : fieldA w = 0 := by
  rw [BitVec.and_allOnes] at h
  rw [fieldA, h]; rfl

theorem fieldK_eq_zero (h : w.extractLsb' 0 8 &&& BitVec.allOnes 8 = 0#8) : fieldK w = 0#8 := by
  rwa [BitVec.and_allOnes] at h

theorem fieldK_eq_fieldB (h : w.extractLsb' 0 8 &&& 0x1F#8 = 0#8) :
    fieldK w = BitVec.ofFin (w := 3) (fieldB w) ++ 0#5 := by
  have hlow : ∀ k : Byte, k &&& 0x1F#8 = 0#8 →
      k = BitVec.ofFin (w := 3) (k.extractLsb' 5 3).toFin ++ 0#5 := by decide
  rw [fieldB_eq]
  exact hlow _ h

/-- A word with 0 in a format's must-be-zero bits is the format's pattern of its own fields. -/
theorem fill_eq_self {f : Format} (h : w &&& f.zeroBits = 0#16) : f.fill w = w := by
  have hA := extract_and_eq_zero h 8 3
  have hK := extract_and_eq_zero h 0 8
  calc f.fill w = wordRK (fieldOp w) (fieldA w) (fieldK w) := by
        cases f with
        | RK | SK => rfl
        | RR => rw [fieldK_eq_fieldB hK]; rfl
        | R | S => rw [fieldK_eq_zero hK]; rfl
        | K => rw [fieldA_eq_zero hA]; rfl
        | N => rw [fieldA_eq_zero hA, fieldK_eq_zero hK]; rfl
    _ = w := wordRK_fields w

/-! ### What the op code map selects (R81, R95, R96) -/

/-- The op code map reads every operand from the field where the encoder puts it. -/
theorem encode_of_selectInstr (h : selectInstr w = some i) : encode i = i.format.fill w := by
  have hS : fieldS w = fieldA w := rfl
  unfold selectInstr at h
  split at h <;> cases h
  all_goals
    next hop =>
      have hop := congrArg (BitVec.ofNat 5) hop
      rw [BitVec.ofNat_toNat, BitVec.setWidth_eq] at hop
      simp [encode, Instr.format, Format.fill, hS, hop]

theorem opNumber_eq (w : CodeWord) : opNumber w = (fieldOp w).toNat := by
  have hlt : w.toNat < 2 ^ 16 := w.isLt
  rw [opNumber, fieldOp, BitVec.extractLsb'_toNat, Nat.shiftRight_eq_div_pow]
  omega

theorem selectInstr_eq_none_iff :
    selectInstr w = none ↔ opNumber w = 0 ∨ 24 ≤ opNumber w := by
  have hlt : (fieldOp w).toNat < 32 := (fieldOp w).isLt
  rw [opNumber_eq, selectInstr]
  generalize (fieldOp w).toNat = op at *
  interval_cases op <;> simp

/-- The op code of a word is the one its instruction is encoded with. -/
theorem opNumber_of_selectInstr (h : selectInstr w = some i) :
    opNumber w = (fieldOp (encode i)).toNat := by
  rw [opNumber_eq, encode_of_selectInstr h, fieldOp_fill]

theorem zeroBits_of_selectInstr (h : selectInstr w = some i) :
    i.format.zeroBits = mustBeZero (opNumber w) := by
  rw [opNumber_of_selectInstr h]
  cases i <;> simp [encode, Instr.format, mustBeZero] <;> rfl

/-- Field `a`, whose position `s` shares, as a number (R82). -/
theorem fieldA_eq (w : CodeWord) : fieldA w = Fin.ofNat 8 (w.toNat / 256) := by
  simp [fieldA, Nat.shiftRight_eq_div_pow]

theorem statusOperand_of_selectInstr (h : selectInstr w = some i) :
    i.statusOperand = statusNumber w := by
  rw [statusNumber, ← fieldA_eq, opNumber_of_selectInstr h]
  have hfill := congrArg fieldS (encode_of_selectInstr h)
  cases i with
  | brbs s | brbc s | bclr s | bset s =>
    have hs : s = fieldA w := by simpa [encode, Instr.format, Format.fill] using hfill
    simp [encode, Instr.statusOperand, hs]
  | _ => simp [encode, Instr.statusOperand]

/-! ### The decoder's faults (R84) -/

/-- Exactly when a word is refused, and with which fault: beside `decode_ok_iff`. -/
theorem decode_error_iff {e : DecodeFault} :
    decode w = .error e ↔
      (selectInstr w = none ∧ e = .illegalInstruction) ∨
      ∃ i, selectInstr w = some i ∧
        ((zeroBitsOk i w = false ∧ e = .reservedEncoding) ∨
          (zeroBitsOk i w = true ∧ ∃ n, i.statusOperand = some n ∧ StatusNum.named n = false ∧
            e = .reservedStatusBit n)) := by
  unfold decode
  cases selectInstr w with
  | none => simp [eq_comm (b := e)]
  | some i =>
    cases hz : zeroBitsOk i w with
    | false => simp [hz, eq_comm (b := e)]
    | true =>
      cases ho : i.statusOperand with
      | none => simp [hz, ho]
      | some n => cases hn : StatusNum.named n <;> simp [hz, ho, hn, eq_comm (b := e)]

/-- Settles O1: the word of an instruction passes every step of R84. -/
theorem decodeInvertsEncode : Obligations.DecodeInvertsEncode := by
  intro i hwf
  obtain ⟨hsel, hzero⟩ := encode_selects i
  exact decode_ok_iff.2 ⟨hsel, hzero, hwf⟩

/-- Settles O2: the encoder fills the format's pattern with the fields that the decoder read, and the
must-be-zero check leaves the word nothing beside it. -/
theorem acceptedWordIsTheEncoding : Obligations.AcceptedWordIsTheEncoding := by
  intro w i h
  obtain ⟨hsel, hzero, hwf⟩ := decode_ok_iff.1 h
  refine ⟨?_, hwf⟩
  calc encode i = i.format.fill w := encode_of_selectInstr hsel
    _ = w := fill_eq_self (zeroBitsOk_iff_zeroBits.1 hzero)

/-- Settles O3: without an instruction selected only the first fault is left, and of a selected one the
op code number says both its must-be-zero bits and where its status bit number stands. -/
theorem decodeFaultsByWord : Obligations.DecodeFaultsByWord := by
  intro w
  cases hsel : selectInstr w with
  | none =>
    have hop : opNumber w = 0 ∨ 24 ≤ opNumber w := selectInstr_eq_none_iff.1 hsel
    have hunassigned : ¬(1 ≤ opNumber w ∧ opNumber w ≤ 23) := by omega
    have hformat : opNumber w ∉ [11, 12, 18, 19] := by simp; omega
    have hstatus : statusNumber w = none := if_neg hformat
    simp [decode_error_iff, hsel, hop, hunassigned, hstatus, ← and_assoc]
  | some i =>
    have hop : ¬(opNumber w = 0 ∨ 24 ≤ opNumber w) := by simp [← selectInstr_eq_none_iff, hsel]
    have hassigned : 1 ≤ opNumber w ∧ opNumber w ≤ 23 := by omega
    have hzero : zeroBitsOk i w = true ↔ w &&& mustBeZero (opNumber w) = 0#16 := by
      rw [zeroBitsOk_iff_zeroBits, zeroBits_of_selectInstr hsel]
    have hstatus := statusOperand_of_selectInstr hsel
    simp [decode_error_iff, hsel, hop, hassigned, hzero, hstatus, ← Bool.not_eq_true,
      StatusNum.named]

end Sys2Proof
end

section
/-! PROOFS. Statements of `40_data_transfer.md`. LDI, MOV, LD and LDS write one register; ST and STS
write one cell. What a load or a store leaves is said once for `readThen` and `writeThen`. -/

namespace Sys2Proof

open Sys2Proof.Machine Sys2Proof.Claims

theorem decode_of_eq_encode {w : CodeWord} {i : Instr} (hw : w = encode i)
    (hwf : i.wellFormed = true) : decode w = .ok i := by
  rw [hw]
  exact decodeInvertsEncode i hwf

variable {i : Instr} {s : State} {x v : Byte} {rest : State → Prop}

/-! ### One register written -/

theorem sameRegsBut_setReg (s : State) (a : RegNum) (v : Byte) : SameRegsBut a s (s.setReg a v) :=
  fun _ hr => State.reg_setReg_ne s v hr

theorem sameData_setReg (s : State) (a : RegNum) (v : Byte) : SameData s (s.setReg a v) :=
  State.cell_setReg s a v

theorem sameRest_setReg (s : State) (a : RegNum) (v : Byte) : SameRest s (s.setReg a v) :=
  ⟨rfl, rfl, rfl⟩

/-! ### One data cell read or written (R52, R53) -/

/-- An instruction that is one read, whose continuation leaves the flags, the data cells and the rest. -/
theorem loadOutcome_of_readThen {next : Byte → State} (hexec : exec i s = readThen s x next)
    (hsreg : (next (s.cell x)).sreg = s.sreg) (hdata : SameData s (next (s.cell x)))
    (hfixed : SameRest s (next (s.cell x))) (hrest : rest (next (s.cell x))) :
    LoadOutcome i x s rest := by
  rw [LoadOutcome, hexec]
  constructor
  · intro hx
    exact readThen_fault_iff.2 ⟨(s.inPlatform_iff x).2 hx, rfl⟩
  · intro hx
    have hplain : s.inPlatform x = false := (s.inPlatform_eq_false_iff x).2 hx
    exact ⟨_, readThen_next_iff.2 ⟨hplain, rfl⟩, hsreg, hdata, hfixed, hrest⟩

/-- An instruction that is one write, whose continuation leaves the registers, the flags, data memory as
written and the rest. -/
theorem storeOutcome_of_writeThen {next : State → State} (hexec : exec i s = writeThen s x v next)
    (hregs : SameRegs s (next (s.setCell x v))) (hsreg : (next (s.setCell x v)).sreg = s.sreg)
    (hfixed : SameRest s (next (s.setCell x v)))
    (hdata : (next (s.setCell x v)).datamem = (s.setCell x v).datamem)
    (hrest : rest (next (s.setCell x v))) : StoreOutcome i x v s rest := by
  rw [StoreOutcome, hexec]
  constructor
  · intro hx
    exact writeThen_fault_iff.2 ⟨(s.inPlatform_iff x).2 hx, rfl⟩
  · intro hx
    have hplain : s.inPlatform x = false := (s.inPlatform_eq_false_iff x).2 hx
    refine ⟨_, writeThen_next_iff.2 ⟨hplain, rfl⟩, hregs, hsreg, hfixed, hrest, fun hwf => ⟨?_, ?_⟩⟩
    · rw [State.cell_congr hdata, State.cell_setCell_same hwf]
    · intro y hy
      rw [State.cell_congr hdata, State.cell_setCell_ne hwf v hy]

theorem loadOutcome_setReg {a : RegNum} (hexec : exec i s = readThen s x fun v => s.setReg a v) :
    LoadOutcome i x s fun t =>
      t.reg a = s.cell x ∧ SameRegsBut a s t ∧ t.pc = s.pc ∧ t.sp = s.sp :=
  loadOutcome_of_readThen hexec rfl (sameData_setReg s a _) (sameRest_setReg s a _)
    ⟨State.reg_setReg_same s a _, sameRegsBut_setReg s a _, rfl, rfl⟩

theorem storeOutcome_id (hexec : exec i s = writeThen s x v id) :
    StoreOutcome i x v s fun t => t.pc = s.pc ∧ t.sp = s.sp :=
  storeOutcome_of_writeThen hexec (State.reg_setCell s x v) rfl ⟨rfl, rfl, rfl⟩ rfl ⟨rfl, rfl⟩

/-! ### The instructions -/

/-- Settles O7: `x[b]` and the cell are read in the state before `x[a]` is written, so `a = b` is no
case of its own. -/
theorem ldLoadsIndirect : Obligations.LdLoadsIndirect := by
  intro a b s
  exact ⟨decode_of_eq_encode (word_formula_RR (by decide) a b) rfl, loadOutcome_setReg rfl⟩

/-- Settles O8: the instruction is one write, at the address in `x[b]`. -/
theorem stStoresIndirect : Obligations.StStoresIndirect := by
  intro a b s
  exact ⟨decode_of_eq_encode (word_formula_RR (by decide) a b) rfl, storeOutcome_id rfl⟩

/-- Settles O9: as LD, with the field `k` for the address. -/
theorem ldsLoadsDirect : Obligations.LdsLoadsDirect := by
  intro a k s
  exact ⟨decode_of_eq_encode (word_formula_RK (by decide) a k) rfl, loadOutcome_setReg rfl⟩

/-- Settles O10: as ST, with the field `k` for the address. -/
theorem stsStoresDirect : Obligations.StsStoresDirect := by
  intro a k s
  exact ⟨decode_of_eq_encode (word_formula_RK (by decide) a k) rfl, storeOutcome_id rfl⟩

/-- Settles O5: the instruction is one write of `k` to `x[a]`, for every `k`. -/
theorem ldiLoadsImmediate : Obligations.LdiLoadsImmediate := by
  intro a k s
  refine ⟨decode_of_eq_encode (word_formula_RK (by decide) a k) rfl, s.setReg a k, ?_⟩
  exact ⟨exec_ldi_next.2 rfl, State.reg_setReg_same s a k, sameRegsBut_setReg s a k, rfl, rfl, rfl,
    sameData_setReg s a k, sameRest_setReg s a k⟩

/-- Settles O6: the instruction is one write of the old `x[b]` to `x[a]`. -/
theorem movCopiesRegister : Obligations.MovCopiesRegister := by
  intro a b s
  refine ⟨decode_of_eq_encode (word_formula_RR (by decide) a b) rfl, s.setReg a (s.reg b), ?_⟩
  exact ⟨exec_mov_next.2 rfl, State.reg_setReg_same s a _, sameRegsBut_setReg s a _, rfl, rfl, rfl,
    sameData_setReg s a _, sameRest_setReg s a _⟩

end Sys2Proof
end

section
/-! PROOFS. Statements of `41_arithmetic_logic.md`. Each of the seven instructions is one
run of the ALU (`State.alu`), so its frame and its Z, N and S are said once; what is left of each is its row of the
ALU table, a fact about bytes. -/

namespace Sys2Proof.Machine

/-! ### The results of the table, as numbers (R140) -/

theorem sub_toNat_emod (x y : Byte) : ((x - y).toNat : Int) = (x.toNat - y.toNat : Int) % 256 := by
  have hy := y.isLt
  rw [BitVec.toNat_sub]
  omega

theorem shl_bit7 (x : Byte) (c : Bool) : (shl x c).getLsbD 7 = x.getLsbD 6 := by
  rw [shl, BitVec.getLsbD_append, BitVec.getLsbD_extractLsb']
  rfl

/-! ### The carry of ADD and the borrow of SUB (R143, R144) -/

theorem addCarry_iff (x y : Byte) : addCarry x y = true ↔ 256 ≤ x.toNat + y.toNat :=
  decide_eq_true_iff

theorem subBorrow_iff (x y : Byte) : subBorrow x y = true ↔ x.toNat < y.toNat :=
  decide_eq_true_iff

/-! ### The overflow of ADD and SUB, by sign bits and as a signed number out of range (R143, R144) -/

theorem addOverflow_iff_signs (x y r : Byte) :
    addOverflow x y r = true ↔ x.getLsbD 7 = y.getLsbD 7 ∧ r.getLsbD 7 ≠ x.getLsbD 7 := by
  simp [addOverflow, msb_eq_bit7]

theorem subOverflow_iff_signs (x y r : Byte) :
    subOverflow x y r = true ↔ x.getLsbD 7 ≠ y.getLsbD 7 ∧ r.getLsbD 7 ≠ x.getLsbD 7 := by
  simp [subOverflow, msb_eq_bit7]

theorem addOverflow_eq_saddOverflow (x y : Byte) : addOverflow x y (x + y) = x.saddOverflow y := by
  rw [BitVec.saddOverflow_eq, addOverflow, bne]

theorem subOverflow_eq_ssubOverflow (x y : Byte) : subOverflow x y (x - y) = x.ssubOverflow y := by
  rw [BitVec.ssubOverflow_eq, subOverflow]
  cases x.msb <;> cases y.msb <;> cases (x - y).msb <;> rfl

theorem addOverflow_iff_toInt (x y : Byte) : addOverflow x y (x + y) = true ↔
    x.toInt + y.toInt < -128 ∨ 127 < x.toInt + y.toInt := by
  rw [addOverflow_eq_saddOverflow, BitVec.saddOverflow, Bool.or_eq_true, decide_eq_true_iff,
    decide_eq_true_iff]
  omega

theorem subOverflow_iff_toInt (x y : Byte) : subOverflow x y (x - y) = true ↔
    x.toInt - y.toInt < -128 ∨ 127 < x.toInt - y.toInt := by
  rw [subOverflow_eq_ssubOverflow, BitVec.ssubOverflow, Bool.or_eq_true, decide_eq_true_iff,
    decide_eq_true_iff]
  omega

/-- S after SUB: the sign of the difference, corrected by the overflow, is the signed comparison. -/
theorem sub_sign_xor_overflow_iff (x y : Byte) :
    ((x - y).msb ^^ subOverflow x y (x - y)) = true ↔ x.toInt < y.toInt := by
  have hx := BitVec.le_toInt x
  have hx' := BitVec.toInt_lt (x := x)
  have hy := BitVec.le_toInt y
  have hy' := BitVec.toInt_lt (x := y)
  have hn : (x - y).msb = true ↔ (x.toInt - y.toInt).bmod 256 < 0 := by
    rw [BitVec.msb_eq_toInt, decide_eq_true_iff, BitVec.toInt_sub]
  rw [Bool.xor_iff_ne, ne_eq, Bool.eq_iff_iff, hn, subOverflow_iff_toInt, Int.bmod_def]
  omega

/-! ### The OP codes (R140) -/

theorem AluOp.ofCode?_code (op : AluOp) : AluOp.ofCode? op.code = some op := by
  cases op <;> rfl

theorem AluOp.ofCode?_eq_none_iff (c : BitVec 4) : AluOp.ofCode? c = none ↔ 10 ≤ c.toNat := by
  revert c; decide

/-! ### The ring of nine bits that the rotates turn: C and the register

ROR turns the ring one place to the right; ROL turns it one place to the left, which is eight places
to the right. Nine equal turns of a ring of nine bits come round, whatever their size. -/

/-- C in front of the eight bits of a register (R150, R151). -/
def carryRing (c : Bool) (x : Byte) : BitVec 9 := BitVec.ofBool c ++ x

theorem carryRing_inj {c d : Bool} {x y : Byte} (h : carryRing c x = carryRing d y) :
    c = d ∧ x = y := by
  have hc := congrArg (BitVec.extractLsb' 8 1) h
  have hx := congrArg (BitVec.extractLsb' 0 8) h
  simp only [carryRing, BitVec.extractLsb'_append_eq_left] at hc
  simp only [carryRing, BitVec.extractLsb'_append_eq_right] at hx
  exact ⟨by simpa using congrArg BitVec.msb hc, hx⟩

theorem carryRing_shr (c : Bool) (x : Byte) : carryRing (x.getLsbD 0) (shr x c) =
    (carryRing c x).rotateRight 1 := by
  revert c x; decide

theorem carryRing_shl (c : Bool) (x : Byte) : carryRing (x.getLsbD 7) (shl x c) =
    (carryRing c x).rotateRight 8 := by
  revert c x; decide

theorem getLsbD_rotateRight_nine (x : BitVec 9) (k : Nat) {j : Nat} (hj : j < 9) :
    (x.rotateRight k).getLsbD j = x.getLsbD ((j + k) % 9) := by
  rw [BitVec.getLsbD_rotateRight]
  by_cases h : j < 9 - k % 9
  · have hsame : k % 9 + j = (j + k) % 9 := by omega
    simp [h, hsame]
  · have hwrap : j - (9 - k % 9) = (j + k) % 9 := by omega
    simp [h, hj, hwrap]

theorem rotateRight_zero (x : BitVec 9) : x.rotateRight 0 = x := by
  refine BitVec.eq_of_getLsbD_eq fun j hj => ?_
  rw [getLsbD_rotateRight_nine x 0 hj, Nat.add_zero, Nat.mod_eq_of_lt hj]

theorem rotateRight_rotateRight (x : BitVec 9) (m n : Nat) :
    (x.rotateRight m).rotateRight n = x.rotateRight (m + n) := by
  refine BitVec.eq_of_getLsbD_eq fun j hj => ?_
  have hsum : ((j + n) % 9 + m) % 9 = (j + (m + n)) % 9 := by omega
  rw [getLsbD_rotateRight_nine _ _ hj, getLsbD_rotateRight_nine _ _ (Nat.mod_lt _ (by decide)),
    getLsbD_rotateRight_nine _ _ hj, hsum]

theorem rotateRight_iterate (x : BitVec 9) (k n : Nat) :
    (BitVec.rotateRight · k)^[n] x = x.rotateRight (k * n) := by
  induction n with
  | zero => exact (rotateRight_zero x).symm
  | succ n ih => rw [Function.iterate_succ_apply', ih, rotateRight_rotateRight, Nat.mul_succ]

theorem rotateRight_nine_times (x : BitVec 9) (k : Nat) :
    (BitVec.rotateRight · k)^[9] x = x := by
  rw [rotateRight_iterate, ← BitVec.rotateRight_mod_eq_rotateRight, Nat.mul_mod_left,
    rotateRight_zero]

/-! ### One run of the ALU -/

/-- An ALU instruction writes `x[a]` and the flags and leaves everything else. -/
theorem State.alu_frame (s : State) (op : AluOp) (a : RegNum) (x y : Byte) :
    SameRegsBut a s (s.alu op a x y) ∧ (s.alu op a x y).pc = s.pc ∧ (s.alu op a x y).sp = s.sp ∧
      SameData s (s.alu op a x y) ∧ SameRest s (s.alu op a x y) :=
  ⟨fun _ hr => State.alu_reg_ne s op a x y hr, rfl, rfl, State.alu_cell s op a x y, rfl, rfl, rfl⟩

/-! ### Repeated rotates -/

/-- If one execution acts on `g` of the state as `f`, then `n` executions act as `f` iterated. -/
theorem execTimes_iterate {α : Type} {i : Instr} {g : State → α} {f : α → α}
    (hstep : ∀ s, ∃ t, exec i s = .next t ∧ g t = f (g s)) (n : Nat) :
    ∀ s, ∃ t, execTimes i n s = .next t ∧ g t = f^[n] (g s) := by
  induction n with
  | zero => exact fun s => ⟨s, rfl, rfl⟩
  | succ n ih =>
    intro s
    obtain ⟨u, hu, hgu⟩ := hstep s
    obtain ⟨t, ht, hgt⟩ := ih u
    refine ⟨t, ?_, ?_⟩
    · rw [execTimes, hu]; exact ht
    · rw [hgt, hgu, Function.iterate_succ_apply]

/-- What a rotate of `x[a]` turns. -/
def State.ring (s : State) (a : RegNum) : BitVec 9 := carryRing s.sreg.c (s.reg a)

theorem ror_turns_ring (a : RegNum) (s : State) :
    ∃ t, exec (.ror a) s = .next t ∧ t.ring a = (s.ring a).rotateRight 1 := by
  refine ⟨_, exec_ror_next.2 rfl, ?_⟩
  rw [State.ring, State.alu_reg_same]
  exact carryRing_shr s.sreg.c (s.reg a)

theorem rol_turns_ring (a : RegNum) (s : State) :
    ∃ t, exec (.rol a) s = .next t ∧ t.ring a = (s.ring a).rotateRight 8 := by
  refine ⟨_, exec_rol_next.2 rfl, ?_⟩
  rw [State.ring, State.alu_reg_same]
  exact carryRing_shl s.sreg.c (s.reg a)

end Sys2Proof.Machine

namespace Sys2Proof

open Sys2Proof.Machine Sys2Proof.Claims

/-- An instruction that runs an operation with the flags of R145 to R148 on `x[a]` and `x[b]`. -/
theorem logicOutcome_of_alu {i : Instr} {f : Bool → Bool → Bool} {op : AluOp} {a b : RegNum}
    {s : State} (ha : i.aluDest = some a)
    (hexec : exec i s = .next (s.alu op a (s.reg a) (s.reg b)))
    (hbit : ∀ j, (aluResult op (s.reg a) (s.reg b) s.sreg.c).getLsbD j =
      f ((s.reg a).getLsbD j) ((s.reg b).getLsbD j))
    (hflags : aluFlags op (s.reg a) (s.reg b) s.sreg =
      SReg.ofResult (aluResult op (s.reg a) (s.reg b) s.sreg.c) false s.sreg.c) :
    LogicOutcome i f a b s := by
  obtain ⟨hz, hn, hs⟩ := aluInstructionsSetZeroNegativeSign i a s _ ha hexec
  have hv : (s.alu op a (s.reg a) (s.reg b)).sreg.v = false := by
    rw [State.alu_sreg, hflags, SReg.ofResult_v]
  have hc : (s.alu op a (s.reg a) (s.reg b)).sreg.c = s.sreg.c := by
    rw [State.alu_sreg, hflags, SReg.ofResult_c]
  rw [hv, Bool.xor_false] at hs
  refine ⟨_, hexec, fun j _ => ?_, hn, hz, hv, hs, hc, State.alu_frame ..⟩
  rw [State.alu_reg_same, hbit]

/-- Settles O12: the sign-bit wording of V is its definition, the signed-sum wording is the library's
`BitVec.saddOverflow`. -/
theorem addSetsSumAndFlags : Obligations.AddSetsSumAndFlags := by
  intro a b s
  have hexec : exec (.add a b) s = .next (s.alu .add a (s.reg a) (s.reg b)) := exec_add_next.2 rfl
  obtain ⟨hz, hn, hs⟩ := aluInstructionsSetZeroNegativeSign _ a s _ rfl hexec
  refine ⟨decode_of_eq_encode (word_formula_RR (by decide) a b) rfl, _, hexec, ?_,
    addCarry_iff _ _, ?_, addOverflow_iff_toInt _ _, hn, hz, hs, State.alu_frame ..⟩
  · rw [State.alu_reg_same]
    exact BitVec.toNat_add ..
  · rw [State.alu_reg_same]
    exact addOverflow_iff_signs ..

/-- Settles O13: Z and S as comparisons of the operands follow from the difference being 0 and from its
sign corrected by V. -/
theorem subSetsDifferenceAndFlags : Obligations.SubSetsDifferenceAndFlags := by
  intro a b s
  have hexec : exec (.sub a b) s = .next (s.alu .sub a (s.reg a) (s.reg b)) := exec_sub_next.2 rfl
  obtain ⟨hz, hn, hs⟩ := aluInstructionsSetZeroNegativeSign _ a s _ rfl hexec
  refine ⟨decode_of_eq_encode (word_formula_RR (by decide) a b) rfl, _, hexec, ?_,
    subBorrow_iff _ _, ?_, subOverflow_iff_toInt _ _, hn, hz, ?_, hs,
    sub_sign_xor_overflow_iff _ _, State.alu_frame ..⟩
  · rw [State.alu_reg_same]
    exact sub_toNat_emod ..
  · rw [State.alu_reg_same]
    exact subOverflow_iff_signs ..
  · rw [hz, State.alu_reg_same]
    exact BitVec.sub_eq_iff_eq_add.trans (by rw [BitVec.zero_add])

/-- Settles O14: the three differ in the bit function only. -/
theorem logicInstructionsCombineBits : Obligations.LogicInstructionsCombineBits := by
  intro a b s
  refine ⟨decode_of_eq_encode (word_formula_RR (by decide) a b) rfl,
    decode_of_eq_encode (word_formula_RR (by decide) a b) rfl,
    decode_of_eq_encode (word_formula_RR (by decide) a b) rfl, ?_, ?_, ?_⟩
  · exact logicOutcome_of_alu rfl (exec_and_next.2 rfl) (fun _ => BitVec.getLsbD_and) rfl
  · exact logicOutcome_of_alu rfl (exec_or_next.2 rfl) (fun _ => BitVec.getLsbD_or) rfl
  · exact logicOutcome_of_alu rfl (exec_eor_next.2 rfl) (fun _ => BitVec.getLsbD_xor) rfl

/-- Settles O15: the old C enters at bit 7, so it is the new N. -/
theorem rorRotatesThroughCarry : Obligations.RorRotatesThroughCarry := by
  intro a s
  have hexec : exec (.ror a) s = .next (s.alu .ror a (s.reg a) 0#8) := exec_ror_next.2 rfl
  obtain ⟨hz, hn, hs⟩ := aluInstructionsSetZeroNegativeSign _ a s _ rfl hexec
  refine ⟨decode_of_eq_encode (word_formula_R (by decide) a) rfl, _, hexec, ?_, rfl, hn, ?_, hz,
    rfl, hs, State.alu_frame ..⟩
  · rw [State.alu_reg_same]
    exact shr_toNat ..
  · rw [hn, State.alu_reg_same]
    exact shr_entering ..

/-- Settles O16: the old bit 6 moves to bit 7, so it is the new N. -/
theorem rolRotatesThroughCarry : Obligations.RolRotatesThroughCarry := by
  intro a s
  have hexec : exec (.rol a) s = .next (s.alu .rol a (s.reg a) 0#8) := exec_rol_next.2 rfl
  obtain ⟨hz, hn, hs⟩ := aluInstructionsSetZeroNegativeSign _ a s _ rfl hexec
  refine ⟨decode_of_eq_encode (word_formula_R (by decide) a) rfl, _, hexec, ?_, rfl, hn, ?_, hz,
    rfl, hs, State.alu_frame ..⟩
  · rw [State.alu_reg_same]
    exact shl_toNat ..
  · rw [hn, State.alu_reg_same]
    exact shl_bit7 ..

/-- Settles O19: each rotate turns the ring by a fixed number of places, and the ring has nine. -/
theorem nineRotatesRestore : Obligations.NineRotatesRestore := by
  intro i a s hi
  have hturn : ∃ k, ∀ u, ∃ t, exec i u = .next t ∧ t.ring a = (u.ring a).rotateRight k := by
    obtain rfl | rfl := hi
    · exact ⟨1, ror_turns_ring a⟩
    · exact ⟨8, rol_turns_ring a⟩
  obtain ⟨k, hk⟩ := hturn
  obtain ⟨t, ht, hring⟩ := execTimes_iterate (g := (State.ring · a))
    (f := (BitVec.rotateRight · k)) hk 9 s
  rw [rotateRight_nine_times] at hring
  obtain ⟨hc, hreg⟩ := carryRing_inj hring
  exact ⟨t, ht, hreg, hc⟩

/-- Settles O20: the table's columns one by one; the OP codes are inverted by `AluOp.ofCode?`. -/
theorem aluTableRows : Obligations.AluTableRows := by
  refine ⟨fun x y ca => ?_, fun x y old => ?_, by decide, AluOp.ofCode?_code,
    AluOp.ofCode?_eq_none_iff⟩
  · exact ⟨BitVec.toNat_add .., rfl, sub_toNat_emod .., rfl, sub_toNat_emod 0#8 x,
      fun _ _ => BitVec.getLsbD_and, fun _ _ => BitVec.getLsbD_or, fun _ _ => BitVec.getLsbD_xor,
      shr_toNat .., shl_toNat ..⟩
  · refine ⟨rfl, rfl, fun op hop => ?_⟩
    fin_cases hop <;> rfl

/-- Settles O21: the row of a rotate does not use input `b`, so `x[b]` may stand there. -/
theorem instructionsUseTheirAluRow : Obligations.InstructionsUseTheirAluRow := by
  intro i op a b s t hrow h
  fin_cases hrow
  all_goals cases h; exact ⟨State.alu_reg_same .., rfl⟩

end Sys2Proof
end

section
/-! PROOFS. Statements of `42_control.md`. The branches are one operation, `withFlag` then `branchIf`,
and differ in the value of the status bit they wait for; a run stops where the machine is halted, since
STOP alone halts it and a halted machine has no step. -/

namespace Sys2Proof.Machine

variable {s t : State} {sb : StatusNum} {f : Flag} {k : Byte}

/-! ### Halted machines and runs (R180, R263) -/

theorem step_ne_next_of_halted (hh : s.halted = true) (u : State) : step s ≠ .next u := by
  simp [step_of_halted hh]

/-- A run from a halted machine has no steps. -/
theorem run_of_halted {n : Nat} (hh : s.halted = true) (hrun : core.run n s = .next t) :
    n = 0 ∧ t = s := by
  cases n with
  | zero => exact ⟨rfl, run_zero_next.1 hrun⟩
  | succ n =>
    obtain ⟨u, hstep, -⟩ := run_succ_next.1 hrun
    exact absurd hstep (step_ne_next_of_halted hh u)

/-- A step is a function of the state, so two runs agree as long as both go on, and a run that has
halted does not go on. -/
theorem halted_runs_agree {u : State} (ht : t.halted = true) (hu : u.halted = true) :
    ∀ {n m : Nat} {s : State}, core.run n s = .next t → core.run m s = .next u → t = u := by
  intro n
  induction n with
  | zero =>
    intro m s hn hm
    obtain rfl := run_zero_next.1 hn
    exact (run_of_halted ht hm).2.symm
  | succ n ih =>
    intro m s hn hm
    obtain ⟨v, hstep, hn'⟩ := run_succ_next.1 hn
    cases m with
    | zero =>
      obtain rfl := run_zero_next.1 hm
      exact absurd hstep (step_ne_next_of_halted hu v)
    | succ m =>
      obtain ⟨v', hstep', hm'⟩ := run_succ_next.1 hm
      obtain rfl : v' = v := Host.Outcome.next.inj (hstep'.symm.trans hstep)
      exact ih hn' hm'

/-! ### The status bit that a number names (R26, R94) -/

theorem statusBits_getElem?_eq_map (r : SReg) (sb : StatusNum) :
    (statusBits r)[sb.val]? = (Flag.ofNum? sb).map r.get := by
  fin_cases sb <;> rfl

theorem named_of_ofNum? (hf : Flag.ofNum? sb = some f) : StatusNum.named sb = true := by
  rw [← Bool.not_eq_false, ← Flag.ofNum?_eq_none_iff, hf]
  exact Option.some_ne_none f

/-! ### Guarded transfers (R183, R185) -/

theorem State.branchIf_eq_ite {taken : Bool} {p : Prop} [Decidable p] (h : taken = true ↔ p) :
    s.branchIf taken k = if p then s.setPc k else s := by
  simp only [State.branchIf, h]

/-- BRBS on a named bit, with the test said by any equivalent condition. -/
theorem exec_brbs_eq_ite {p : Prop} [Decidable p] (hf : Flag.ofNum? sb = some f)
    (h : s.sreg.get f = true ↔ p) :
    exec (.brbs sb k) s = .next (if p then s.setPc k else s) :=
  exec_brbs_next.2 ⟨f, hf, (State.branchIf_eq_ite h).symm⟩

/-- BRBC on a named bit, with the test said by any equivalent condition. -/
theorem exec_brbc_eq_ite {p : Prop} [Decidable p] (hf : Flag.ofNum? sb = some f)
    (h : s.sreg.get f = false ↔ p) :
    exec (.brbc sb k) s = .next (if p then s.setPc k else s) :=
  exec_brbc_next.2 ⟨f, hf, (State.branchIf_eq_ite ((Bool.not_eq_true' _).to_iff.trans h)).symm⟩

end Sys2Proof.Machine

namespace Sys2Proof

open Sys2Proof.Machine Sys2Proof.Claims

section

variable {i : Instr} {w : CodeWord} {s : State} {sb : StatusNum} {k : Byte}

theorem wellFormed_of_statusOperand (ho : i.statusOperand = some sb) :
    i.wellFormed = StatusNum.named sb := by
  rw [Instr.wellFormed, ho]

/-- The word of an ill-formed term passes every check before the last (R84, R94). -/
theorem decode_of_eq_encode_reserved (hw : w = encode i) (ho : i.statusOperand = some sb)
    (hs : StatusNum.named sb = false) : decode w = .error (.reservedStatusBit sb) := by
  obtain ⟨hsel, hzero⟩ := encode_selects i
  rw [hw]
  exact decode_error_iff.2 (.inr ⟨i, hsel, .inr ⟨hzero, sb, ho, hs, rfl⟩⟩)

/-- An instruction that branches when its status bit is `want`. -/
theorem branchOutcome_of_withFlag {taken : Flag → Bool} {want : Bool} (hw : w = encode i)
    (ho : i.statusOperand = some sb)
    (hexec : exec i s = withFlag s sb fun f => s.branchIf (taken f) k)
    (htaken : ∀ f, taken f = true ↔ s.sreg.get f = want) : BranchOutcome i w sb want k s := by
  rw [BranchOutcome, statusBits_getElem?_eq_map, hexec]
  cases hf : Flag.ofNum? sb with
  | some f =>
    refine ⟨?_, nofun⟩
    rintro bit ⟨⟩
    have hwf : i.wellFormed = true := (wellFormed_of_statusOperand ho).trans (named_of_ofNum? hf)
    have hpc : (s.branchIf (taken f) k).pc = if s.sreg.get f = want then k else s.pc := by
      simp only [State.branchIf_pc, htaken]
    exact ⟨decode_of_eq_encode hw hwf, _, withFlag_next_iff.2 ⟨f, hf, rfl⟩, hpc,
      State.reg_branchIf s _ k, State.branchIf_sreg .., State.branchIf_sp ..,
      State.cell_branchIf s _ k, State.branchIf_codemem .., State.branchIf_halted ..,
      State.branchIf_cfg ..⟩
  | none =>
    refine ⟨nofun, fun _ => ?_⟩
    exact ⟨decode_of_eq_encode_reserved hw ho ((Flag.ofNum?_eq_none_iff sb).1 hf),
      withFlag_fault_iff.2 ⟨hf, rfl⟩⟩

/-! ### The rows of R186 -/

/-- A pseudo-instruction that stands for BRBS on the bit of `f`; `high` is the word's high byte. -/
theorem branchRow_brbs {p : Pseudo} {high : CodeWord} (f : Flag) (hp : p.expand = .brbs sb k)
    (hf : Flag.ofNum? sb = some f) (hhigh : high = 0x5800#16 ||| at8 sb) :
    p.word = high ||| imm k ∧ decode p.word = .ok p.expand ∧
      exec p.expand s = .next (if s.sreg.get f then s.setPc k else s) := by
  rw [Pseudo.word, hp]
  refine ⟨?_, decodeInvertsEncode _ (named_of_ofNum? hf), exec_brbs_eq_ite hf Iff.rfl⟩
  rw [hhigh]
  exact (word_formula_RK (by decide) sb k).symm

/-- A pseudo-instruction that stands for BRBC on the bit of `f`; `high` is the word's high byte. -/
theorem branchRow_brbc {p : Pseudo} {high : CodeWord} (f : Flag) (hp : p.expand = .brbc sb k)
    (hf : Flag.ofNum? sb = some f) (hhigh : high = 0x6000#16 ||| at8 sb) :
    p.word = high ||| imm k ∧ decode p.word = .ok p.expand ∧
      exec p.expand s = .next (if !s.sreg.get f then s.setPc k else s) := by
  rw [Pseudo.word, hp]
  refine ⟨?_, decodeInvertsEncode _ (named_of_ofNum? hf), exec_brbc_eq_ite hf (by simp)⟩
  rw [hhigh]
  exact (word_formula_RK (by decide) sb k).symm

end

/-! ### The statements -/

/-- Settles O53, by induction on the length of the run: its first step either halts the machine, and
then no step follows, or the last step is the last one of the rest. -/
theorem runsHaltOnlyByStop : Obligations.RunsHaltOnlyByStop := by
  intro n
  induction n with
  | zero =>
    intro s t hs hrun ht
    obtain rfl := run_zero_next.1 hrun
    exact absurd (hs.symm.trans ht) (by decide)
  | succ n ih =>
    intro s t hs hrun ht
    obtain ⟨v, hstep, hrest⟩ := run_succ_next.1 hrun
    cases hv : v.halted with
    | true =>
      obtain ⟨rfl, rfl⟩ := run_of_halted hv hrest
      exact ⟨0, s, rfl, run_zero_next.2 rfl, hs, (onlyStopHalts s t hstep).1 hv, hstep⟩
    | false =>
      obtain ⟨m, u, rfl, hm, hlast⟩ := ih v t hv hrest ht
      exact ⟨m + 1, u, rfl, run_succ_next.2 ⟨v, hstep, hm⟩, hlast⟩

/-- Settles O24: the test is the status bit itself. -/
theorem brbsBranchesWhenBitSet : Obligations.BrbsBranchesWhenBitSet := by
  intro sb k s
  exact branchOutcome_of_withFlag (word_formula_RK (by decide) sb k) rfl rfl fun _ => Iff.rfl

/-- Settles O25: as BRBS, the test being the negated status bit. -/
theorem brbcBranchesWhenBitClear : Obligations.BrbcBranchesWhenBitClear := by
  intro sb k s
  exact branchOutcome_of_withFlag (word_formula_RK (by decide) sb k) rfl rfl fun _ => by simp

/-- Settles O26: after SUB, C, Z and S are the three comparisons of the old operands (O13). -/
theorem branchesAfterSubCompare : Obligations.BranchesAfterSubCompare := by
  intro a b k s t hsub
  obtain ⟨-, t', hsub', -, hc, -, -, -, -, hz, -, hs, -⟩ := subSetsDifferenceAndFlags a b s
  obtain rfl : t' = t := Host.Outcome.next.inj (hsub'.symm.trans hsub)
  refine ⟨exec_brbs_eq_ite (f := .c) rfl hc, exec_brbc_eq_ite (f := .c) rfl ?_,
    exec_brbs_eq_ite (f := .z) rfl hz, exec_brbc_eq_ite (f := .z) rfl ?_,
    exec_brbs_eq_ite (f := .s) rfl hs, exec_brbc_eq_ite (f := .s) rfl ?_⟩
  · rw [← Bool.not_eq_true, ← not_lt]; exact not_congr hc
  · rw [← Bool.not_eq_true]; exact not_congr hz
  · rw [← Bool.not_eq_true, ← not_lt]; exact not_congr hs

/-- Settles O27: seven rows are BRBS and seven are BRBC, each with its bit. -/
theorem branchPseudoInstructionTable : Obligations.BranchPseudoInstructionTable := by
  intro k s row hrow
  fin_cases hrow
  exacts [branchRow_brbs .c rfl rfl rfl, branchRow_brbs .c rfl rfl rfl,
    branchRow_brbs .z rfl rfl rfl, branchRow_brbs .z rfl rfl rfl,
    branchRow_brbs .n rfl rfl rfl, branchRow_brbs .v rfl rfl rfl,
    branchRow_brbs .s rfl rfl rfl, branchRow_brbc .c rfl rfl rfl,
    branchRow_brbc .c rfl rfl rfl, branchRow_brbc .z rfl rfl rfl,
    branchRow_brbc .z rfl rfl rfl, branchRow_brbc .n rfl rfl rfl,
    branchRow_brbc .v rfl rfl rfl, branchRow_brbc .s rfl rfl rfl]

/-- Settles O54: both runs end where the machine is halted. -/
theorem runHasOneFinalState : Obligations.RunHasOneFinalState := by
  rintro s t u ⟨n, hn, ht⟩ ⟨m, hm, hu⟩
  exact halted_runs_agree ht hu hn hm

/-- Settles O22: the state after STOP is halted, and so has no step. -/
theorem stopHaltsTheMachine : Obligations.StopHaltsTheMachine := by
  intro s
  exact ⟨decodeInvertsEncode .stop rfl, s.halt, exec_stop_next.2 rfl, rfl, State.reg_halt s, rfl, rfl,
    State.cell_halt s, rfl, rfl, step_ne_next_of_halted rfl⟩

/-- Settles O23: the instruction is one write of `k` to `pc`, for every `k`. -/
theorem jmpGoesToTheAbsoluteAddress : Obligations.JmpGoesToTheAbsoluteAddress := by
  intro k s
  exact ⟨decode_of_eq_encode (word_formula_K (by decide) k) rfl, s.setPc k, exec_jmp_next.2 rfl, rfl,
    State.reg_setPc s k, rfl, rfl, State.cell_setPc s k, rfl, rfl, rfl⟩

end Sys2Proof
end

section
/-! PROOFS. Statements of `43_status.md`. BCLR and BSET are one operation, one bit of the status register
written through `withFlag`, and differ in the value written; each of the ten pseudo-instructions is that
operation on a named bit. -/

namespace Sys2Proof

open Sys2Proof.Machine Sys2Proof.Claims

/-! ### One bit written, by bit number (R26) -/

theorem statusBits_set {sb : StatusNum} {f : Flag} (hf : Flag.ofNum? sb = some f) (r : SReg)
    (b : Bool) : statusBits (r.set f b) = (statusBits r).set sb.val b := by
  rw [Flag.ofNum?_eq_some_iff.1 hf]
  cases f <;> rfl

theorem exists_ofNum?_of_named {sb : StatusNum} (h : StatusNum.named sb = true) :
    ∃ f, Flag.ofNum? sb = some f := by
  rw [← Option.ne_none_iff_exists', Ne, Flag.ofNum?_eq_none_iff, h]
  decide

/-! ### The instructions that write one status bit (R200 to R202) -/

section

variable {i : Instr} {w : CodeWord} {sb : StatusNum} {s : State} {p : Pseudo}

/-- An instruction that writes `b` to its status bit. -/
theorem statusOutcome_of_withFlag {b : Bool} (hw : w = encode i) (ho : i.statusOperand = some sb)
    (hexec : exec i s = withFlag s sb fun f => s.setSreg (s.sreg.set f b)) :
    StatusOutcome i w sb b s := by
  rw [StatusOutcome, hexec]
  constructor
  · intro hle
    have hnamed : StatusNum.named sb = true := decide_eq_true hle
    obtain ⟨f, hf⟩ := exists_ofNum?_of_named hnamed
    exact ⟨decode_of_eq_encode hw ((wellFormed_of_statusOperand ho).trans hnamed), _,
      withFlag_next_iff.2 ⟨f, hf, rfl⟩, statusBits_set hf s.sreg b, State.reg_setSreg s _, rfl, rfl,
      State.cell_setSreg s _, rfl, rfl, rfl⟩
  · intro hlt
    have hreserved : StatusNum.named sb = false := decide_eq_false (Nat.not_le.2 hlt)
    exact ⟨decode_of_eq_encode_reserved hw ho hreserved,
      withFlag_fault_iff.2 ⟨(Flag.ofNum?_eq_none_iff sb).2 hreserved, rfl⟩⟩

/-- A row of R203: a pseudo-instruction that stands for the instruction writing `b` to the bit of `f`. -/
theorem statusRow (f : Flag) (b : Bool) (hw : p.word = w) (ho : p.expand.statusOperand = some sb)
    (hf : Flag.ofNum? sb = some f)
    (hexec : exec p.expand s = withFlag s sb fun f => s.setSreg (s.sreg.set f b)) :
    p.word = w ∧ decode p.word = .ok p.expand ∧
      exec p.expand s = .next (s.setSreg (s.sreg.set f b)) := by
  refine ⟨hw, decodeInvertsEncode _ ((wellFormed_of_statusOperand ho).trans (named_of_ofNum? hf)), ?_⟩
  rw [hexec]
  exact withFlag_next_iff.2 ⟨f, hf, rfl⟩

end

/-! ### The statements -/

/-- Settles O28: the value written is 0. -/
theorem bclrClearsOneBit : Obligations.BclrClearsOneBit := by
  intro sb s
  exact statusOutcome_of_withFlag (word_formula_R (by decide) sb) rfl rfl

/-- Settles O29: the value written is 1. -/
theorem bsetSetsOneBit : Obligations.BsetSetsOneBit := by
  intro sb s
  exact statusOutcome_of_withFlag (word_formula_R (by decide) sb) rfl rfl

/-- Settles O30: five rows are BCLR and five are BSET, each with its bit. -/
theorem statusPseudoInstructionTable : Obligations.StatusPseudoInstructionTable := by
  intro s row hrow
  fin_cases hrow
  exacts [statusRow .c false rfl rfl rfl rfl, statusRow .z false rfl rfl rfl rfl,
    statusRow .n false rfl rfl rfl rfl, statusRow .v false rfl rfl rfl rfl,
    statusRow .s false rfl rfl rfl rfl, statusRow .c true rfl rfl rfl rfl,
    statusRow .z true rfl rfl rfl rfl, statusRow .n true rfl rfl rfl rfl,
    statusRow .v true rfl rfl rfl rfl, statusRow .s true rfl rfl rfl rfl]

end Sys2Proof
end

section
/-! PROOFS. Statements of `44_stack.md`. PUSH and CALL are one write at `sp` and a step down; POP and
RET are one read at `sp + 1` and a step up (R214). What a pop finds after a push is said once. -/

namespace Sys2Proof.Machine

/-! ### The two moves of `sp`, modulo 256 (R25) -/

theorem sp_down_toNat (sp : Byte) : (sp - 1).toNat = (sp.toNat + 255) % 256 := by bv_omega

theorem sp_up_toNat (sp : Byte) : (sp + 1).toNat = (sp.toNat + 1) % 256 := BitVec.toNat_add ..

theorem sp_down_sub_ofNat (sp : Byte) (n : Nat) :
    sp - 1 - BitVec.ofNat 8 n = sp - BitVec.ofNat 8 (n + 1) := by bv_omega

/-! ### A push, then a pop (R214) -/

/-- In a state that a push of `v` left, a pop reads at the old `sp` and finds `v`. -/
theorem pop_finds_pushed {s t : State} {v : Byte} (hwf : Memory.wf s.datamem)
    (hsp : t.sp = s.sp - 1) (hdata : t.datamem = (s.setCell s.sp v).datamem) :
    t.sp + 1 = s.sp ∧ t.cell (t.sp + 1) = v := by
  have haddr : t.sp + 1 = s.sp := by rw [hsp, sub_add_cancel]
  exact ⟨haddr, by rw [haddr, State.cell_congr hdata, State.cell_setCell_same hwf]⟩

end Sys2Proof.Machine

namespace Sys2Proof

open Sys2Proof.Machine Sys2Proof.Claims

/-- Settles O31: the instruction is one write of `x[a]` at `sp`, then `sp` moves down. -/
theorem pushStoresAndDecrements : Obligations.PushStoresAndDecrements := by
  intro a s
  have hexec : exec (.push a) s = writeThen s s.sp (s.reg a) fun t => t.setSp (s.sp - 1) := rfl
  exact ⟨decode_of_eq_encode (word_formula_R (by decide) a) rfl,
    storeOutcome_of_writeThen hexec (State.reg_setCell s s.sp (s.reg a)) rfl ⟨rfl, rfl, rfl⟩ rfl
      ⟨rfl, sp_down_toNat s.sp⟩⟩

/-- Settles O32: the instruction is one read at `sp + 1`, then `sp` moves up and `x[a]` is written. -/
theorem popLoadsAndIncrements : Obligations.PopLoadsAndIncrements := by
  intro a s
  have hexec : exec (.pop a) s =
      readThen s (s.sp + 1) fun v => (s.setSp (s.sp + 1)).setReg a v := rfl
  exact ⟨decode_of_eq_encode (word_formula_R (by decide) a) rfl,
    loadOutcome_of_readThen hexec rfl (sameData_setReg s a (s.cell (s.sp + 1))) ⟨rfl, rfl, rfl⟩
      ⟨State.reg_setReg_same _ a _, sameRegsBut_setReg (s.setSp (s.sp + 1)) a _, rfl,
        sp_up_toNat s.sp⟩⟩

/-- Settles O33: as PUSH, with the `pc` of the rule for the value, and `pc` written after that. -/
theorem callStoresReturnAddress : Obligations.CallStoresReturnAddress := by
  intro k s
  have hexec : exec (.call k) s =
      writeThen s s.sp s.pc fun t => (t.setSp (s.sp - 1)).setPc k := rfl
  exact ⟨decode_of_eq_encode (word_formula_K (by decide) k) rfl,
    storeOutcome_of_writeThen hexec (State.reg_setCell s s.sp s.pc) rfl ⟨rfl, rfl, rfl⟩ rfl
      ⟨rfl, sp_down_toNat s.sp⟩⟩

/-- Settles O34: as POP, with `pc` written in place of a register. -/
theorem retLoadsProgramCounter : Obligations.RetLoadsProgramCounter := by
  intro s
  have hexec : exec .ret s = readThen s (s.sp + 1) fun v => (s.setSp (s.sp + 1)).setPc v := rfl
  exact ⟨decodeInvertsEncode .ret rfl,
    loadOutcome_of_readThen hexec rfl (State.cell_setPc s (s.cell (s.sp + 1))) ⟨rfl, rfl, rfl⟩
      ⟨rfl, State.reg_setPc s (s.cell (s.sp + 1)), sp_up_toNat s.sp⟩⟩

/-- Settles O35: the POP writes `x[a]` with the value that the PUSH took from it, at every `sp`. -/
theorem pushThenPopRestores : Obligations.PushThenPopRestores := by
  intro a s t u hwf hpush hpop
  obtain ⟨-, ht⟩ := exec_push_next.1 hpush
  obtain ⟨-, rfl⟩ := exec_pop_next.1 hpop
  obtain ⟨haddr, hvalue⟩ := pop_finds_pushed (t := t) (v := s.reg a) hwf
    (by simp [ht]) (by simp [ht])
  subst ht
  refine ⟨fun r => ?_, haddr, rfl, State.cell_setCell_same hwf s.sp (s.reg a)⟩
  rw [hvalue, State.reg_setReg]
  split
  · next hr => rw [hr]
  · rfl

/-- Settles O36: the RET writes `pc` with the advanced `pc` that the CALL stored; the advance of `pc`
before the RET is overwritten. -/
theorem callThenRetReturns : Obligations.CallThenRetReturns := by
  intro k s t u hwf hcall hstep hret hstep'
  obtain ⟨-, ht⟩ := exec_call_next.1 (exec_of_fetches hcall hstep)
  obtain ⟨-, rfl⟩ := exec_ret_next.1 (exec_of_fetches hret hstep')
  obtain ⟨haddr, hvalue⟩ := pop_finds_pushed (s := s.advance) (t := t) (v := s.pc + 1) hwf
    (by simp [ht]) (by simp [ht])
  subst ht
  exact ⟨hvalue, haddr, fun _ => rfl, rfl⟩

/-- Settles O38, by induction on the number of pushes: a push off the platform completes, moves `sp`
down by one and changes no register and no platform region. -/
theorem pushesWalkStackPointer : Obligations.PushesWalkStackPointer := by
  intro a n
  induction n with
  | zero => exact fun s _ => ⟨s, rfl, (sub_zero s.sp).symm, fun _ => rfl⟩
  | succ n ih =>
    intro s hnone
    have hplain : s.inPlatform s.sp = false := by simp [State.inPlatform_eq_false_iff, hnone]
    have hpush := exec_push_next (a := a).2 ⟨hplain, rfl⟩
    obtain ⟨t, hrest, hsp, hregs⟩ := ih ((s.setCell s.sp (s.reg a)).setSp (s.sp - 1)) hnone
    refine ⟨t, ?_, hsp.trans (sp_down_sub_ofNat s.sp n), hregs⟩
    rw [execTimes, hpush]
    exact hrest

end Sys2Proof
end

section
/-! PROOFS. Statements of `60_exceptions.md`. A well-formed instruction has one way to fault, its data
access to a platform address; the exact faults of a step, completion off the platform and the safety of
programs that decode are read off that one lemma. -/

namespace Sys2Proof.Machine

open Sys2Proof.Claims

variable {i : Instr} {s t : State} {x : Byte} {f : Fault}

/-! ### The one fault of a well-formed instruction (R52, R53, R231) -/

/-- An instruction whose data access is to `x` faults by `x` alone. -/
theorem platformFault_iff (hx : i.dataAddress s = some x) :
    (s.inPlatform x = true ∧ f = .unmodelledRegion x) ↔
      ∃ y, i.dataAddress s = some y ∧ y ∈ s.cfg.platformRegions ∧ f = .unmodelledRegion y := by
  simp [hx, State.inPlatform_iff]

/-- Exactly when a well-formed instruction faults, and with which fault: beside the `exec_…_next`. -/
theorem exec_fault_iff (hwf : i.wellFormed = true) :
    exec i s = .fault f ↔
      ∃ y, i.dataAddress s = some y ∧ y ∈ s.cfg.platformRegions ∧ f = .unmodelledRegion y := by
  cases i with
  | ld | lds => exact readThen_fault_iff.trans (platformFault_iff rfl)
  | st | sts => exact writeThen_fault_iff.trans (platformFault_iff rfl)
  | push => exact (pushThen_fault_iff (k := id)).trans (platformFault_iff rfl)
  | pop a => exact (popThen_fault_iff (k := fun v u => u.setReg a v)).trans (platformFault_iff rfl)
  | call k => exact (pushThen_fault_iff (k := fun u => u.setPc k)).trans (platformFault_iff rfl)
  | ret => exact (popThen_fault_iff (k := fun v u => u.setPc v)).trans (platformFault_iff rfl)
  | brbs sb | brbc sb | bclr sb | bset sb =>
    obtain ⟨g, hg⟩ := exists_ofNum?_of_named ((wellFormed_of_statusOperand rfl).symm.trans hwf)
    exact ⟨fun h => (nomatch hg.symm.trans (withFlag_fault_iff.1 h).1), nofun⟩
  | ldi | mov | add | sub | and | or | eor | ror | rol | stop | jmp => exact ⟨nofun, nofun⟩

/-- Advancing `pc` moves no data access (R55). -/
@[simp] theorem dataAddress_advance (i : Instr) (s : State) :
    i.dataAddress s.advance = i.dataAddress s := by
  cases i <;> rfl

/-! ### Faults of a step, and what steps keep -/

theorem wellFormed_of_fetches (hf : Fetches s i) : i.wellFormed = true := by
  obtain ⟨w, -, hdecode⟩ := hf
  exact (decode_ok_iff.1 hdecode).2.2

/-- A step faults in its fetch or in the instruction fetched: beside `step_next_inv`. -/
theorem step_fault_iff :
    step s = .fault f ↔
      s.halted = false ∧ (s.fetch = .error f ∨ ∃ i, Fetches s i ∧ exec i s.advance = .fault f) := by
  simp only [Fetches, ← State.fetch_ok_iff]
  cases hh : s.halted with
  | true => simp [step_of_halted hh]
  | false =>
    cases hf : s.fetch with
    | error e => simp [step_of_fetch_error hh hf]
    | ok i => simp [step_of_fetch hh hf]

theorem step_next_cfg (h : step s = .next t) : t.cfg = s.cfg := by
  obtain ⟨-, i, -, hexec⟩ := step_next_inv h
  exact (exec_next_fixed hexec).2

/-- No step writes what the safety of a program rests on: its words and the platform's addresses. -/
theorem run_next_fixed {n : Nat} (h : core.run n s = .next t) :
    t.codemem = s.codemem ∧ t.cfg = s.cfg :=
  run_induction (P := fun u => u.codemem = s.codemem ∧ u.cfg = s.cfg)
    (fun _ _ ⟨hcode, hcfg⟩ hstep =>
      ⟨(step_next_codemem hstep).trans hcode, (step_next_cfg hstep).trans hcfg⟩)
    ⟨rfl, rfl⟩ h

end Sys2Proof.Machine

namespace Sys2Proof

open Sys2Proof.Machine Sys2Proof.Claims

/-- Settles O42: the only fault left to a well-formed instruction is at a platform address, and no
instruction is refused. -/
theorem instructionsCompleteOffPlatform : Obligations.InstructionsCompleteOffPlatform := by
  intro i s hwf hoff
  cases h : exec i s with
  | next t => exact ⟨t, rfl⟩
  | fault f =>
    obtain ⟨x, hx, hplatform, -⟩ := (exec_fault_iff hwf).1 h
    exact absurd hplatform (hoff x hx)
  | refused r => exact absurd h exec_ne_refused

/-- Settles O40: the fetch has the first four faults, the instruction fetched, which is well formed, the
last. -/
theorem stepFaultsExactlyWhen : Obligations.StepFaultsExactlyWhen := by
  intro s f
  have hdecode : (∃ w e, s.codeWord s.pc = some w ∧ decode w = .error e ∧ f = faultAt s.pc w e) ↔
      (∃ w, s.codeWord s.pc = some w ∧ decode w = .error .illegalInstruction ∧
        f = .illegalInstruction s.pc w) ∨
      (∃ w, s.codeWord s.pc = some w ∧ decode w = .error .reservedEncoding ∧
        f = .reservedEncoding s.pc w) ∨
      (∃ w n, s.codeWord s.pc = some w ∧ decode w = .error (.reservedStatusBit n) ∧
        f = .reservedStatusBit s.pc n) := by
    constructor
    · rintro ⟨w, e, hw, he, rfl⟩
      cases e with
      | illegalInstruction => exact .inl ⟨w, hw, he, rfl⟩
      | reservedEncoding => exact .inr (.inl ⟨w, hw, he, rfl⟩)
      | reservedStatusBit n => exact .inr (.inr ⟨w, n, hw, he, rfl⟩)
    · rintro (⟨w, hw, he, rfl⟩ | ⟨w, hw, he, rfl⟩ | ⟨w, n, hw, he, rfl⟩) <;>
        exact ⟨w, _, hw, he, rfl⟩
  have hexec : (∃ i, Fetches s i ∧ exec i s.advance = .fault f) ↔
      ∃ i x, Fetches s i ∧ i.dataAddress s = some x ∧ x ∈ s.cfg.platformRegions ∧
        f = .unmodelledRegion x := by
    refine exists_congr fun i => ?_
    rw [exists_and_left]
    refine and_congr_right fun hf => ?_
    rw [exec_fault_iff (wellFormed_of_fetches hf), dataAddress_advance, State.advance_cfg]
  rw [step_fault_iff, State.fetch_error_iff, hdecode, hexec]
  simp only [or_assoc]

/-- Settles O55: wherever the run is, the program and the empty platform are those of the start, so the
word fetched decodes, to a well-formed instruction, and its data access is off the platform. -/
theorem decodableProgramsAreSafe : Obligations.DecodableProgramsAreSafe := by
  intro s hnone hcode n t hrun ht
  obtain ⟨hcodemem, hcfg⟩ := run_next_fixed hrun
  obtain ⟨w, i, hw, hdecode⟩ := hcode t.pc
  have hfetch : Fetches t i := ⟨w, by rw [State.codeWord, hcodemem]; exact hw, hdecode⟩
  have hoff : ∀ x, i.dataAddress t.advance = some x → x ∉ t.advance.cfg.platformRegions := by
    simp [hcfg, hnone]
  rw [step_of_fetch ht (State.fetch_ok_iff.2 hfetch)]
  exact instructionsCompleteOffPlatform i t.advance (wellFormed_of_fetches hfetch) hoff

end Sys2Proof
end

section
/-! PROOFS. Statements of `70_reset_and_hazards.md`: what the reset event sets, what it passes through,
and the first step after it. -/

namespace Sys2Proof.Machine

/-- The reset event passes both memories through. -/
theorem State.inv_launch (cfg : Config) (regs : Vector Byte 8) (sreg : SReg)
    {data : List Host.Cell} {code : List CodeCell} (hdata : Memory.wf data) (hcode : Code.wf code) :
    (State.launch cfg regs sreg data code).Inv :=
  ⟨hdata, hcode⟩

/-- The reset state has no program: its code memory lists no word. -/
theorem Code.wf_reset : Code.wf State.reset.codemem := by decide

end Sys2Proof.Machine

namespace Sys2Proof

open Sys2Proof.Machine

/-- Settles O51: the reset state is itself a launch, of memories that are canonical. -/
theorem launchMemoriesCanonical : Obligations.LaunchMemoriesCanonical :=
  ⟨State.inv_launch _ _ _ Memory.wf_reset Code.wf_reset,
    fun cfg regs sreg _ _ => State.inv_launch cfg regs sreg⟩

/-- Settles O56: the fields are those of the launch, which is not halted and has `pc` at `PC_RESET`, so
the instruction cycle (R9) runs the word there. -/
theorem resetEventStartsAtResetVector : Obligations.ResetEventStartsAtResetVector := by
  rintro cfg regs sreg data code s rfl
  refine ⟨rfl, rfl, rfl, rfl, rfl, rfl, rfl, rfl, ?defaults, ?firstStep⟩
  case defaults =>
    rintro rfl
    exact ⟨rfl, rfl⟩
  case firstStep =>
    intro w i hw hdecode
    have hfetch : (State.launch cfg regs sreg data code).fetch = .ok i :=
      State.fetch_ok_iff.2 ⟨w, hw, hdecode⟩
    exact step_of_fetch (State.launch_halted ..) hfetch

end Sys2Proof
end

section
/-! PROOFS. Statements of `95_test_vectors.md`: opposite rotates (section 2.4) are one turn of the ring
of C and the register by all of its nine places; the words of section 2.1 are checked by the encoder
where they are accepted, and by the first failing check of R84 where they are not. -/

namespace Sys2Proof.Machine

variable {a : RegNum} {s t : State}

theorem ring_of_exec_ror (h : exec (.ror a) s = .next t) :
    t.ring a = (s.ring a).rotateRight 1 := by
  obtain ⟨u, hu, hring⟩ := ror_turns_ring a s
  cases hu.symm.trans h
  exact hring

theorem ring_of_exec_rol (h : exec (.rol a) s = .next t) :
    t.ring a = (s.ring a).rotateRight 8 := by
  obtain ⟨u, hu, hring⟩ := rol_turns_ring a s
  cases hu.symm.trans h
  exact hring

/-- A turn by all nine places is no turn. -/
theorem rotateRight_nine (x : BitVec 9) : x.rotateRight 9 = x := by
  rw [← BitVec.rotateRight_mod_eq_rotateRight, Nat.mod_self, rotateRight_zero]

end Sys2Proof.Machine

namespace Sys2Proof

open Sys2Proof.Machine

/-- Settles O18: in either order the two turns of the ring, by one place and by eight, add up to nine. -/
theorem oppositeRotatesRestore : Obligations.OppositeRotatesRestore := by
  intro a s t u h
  have hring : u.ring a = (s.ring a).rotateRight 9 := by
    obtain ⟨hror, hrol⟩ | ⟨hrol, hror⟩ := h
    · rw [ring_of_exec_rol hrol, ring_of_exec_ror hror, rotateRight_rotateRight]
    · rw [ring_of_exec_ror hror, ring_of_exec_rol hrol, rotateRight_rotateRight]
  rw [rotateRight_nine] at hring
  obtain ⟨hc, hreg⟩ := carryRing_inj hring
  exact ⟨hreg, hc⟩

/-- Settles O4: an accepted word is the encoding of the well-formed instruction listed for it; a refused
word fails at the check of R84 that raises its fault. -/
theorem specWordsDecode : Obligations.SpecWordsDecode := by
  refine ⟨?ldi, ?mov, ?st, ?or, ?ror, ?call, ?brbc, ?bset, ?ret, ?unassigned, ?mustBeZeroRR,
    ?mustBeZeroS, ?reservedBit⟩
  case ldi | mov | st | or | ror | call | brbc | bset | ret =>
    exact decode_of_eq_encode (by decide) (by decide)
  case unassigned => exact decode_error_iff.2 (.inl ⟨rfl, rfl⟩)
  case mustBeZeroRR => exact decode_error_iff.2 (.inr ⟨.mov 1 2, rfl, .inl ⟨rfl, rfl⟩⟩)
  case mustBeZeroS => exact decode_error_iff.2 (.inr ⟨.bclr 7, rfl, .inl ⟨rfl, rfl⟩⟩)
  case reservedBit => exact decode_error_iff.2 (.inr ⟨.bset 5, rfl, .inr ⟨rfl, 5, rfl, rfl, rfl⟩⟩)

end Sys2Proof
end
